-- ==== Sys2Proof/Word.lean ====
section
/-!
DEFINITION. The word types of the block. A bit of the stream, of the buffer or of a frame is a `Bool`;
a bit sequence is a list whose index 0 is the earliest-received bit (00_scope.md rule R15). Bytes of the two
channels and the values the block computes modulo a power of two are bit vectors. No value is signed (R15).
-/

namespace Sys2Proof

/-- One bit of the stream, of the buffer or of a frame. -/
abbrev Bit := Bool

/-- One byte of the command channel or of the response channel (R70, R78). -/
abbrev Byte := BitVec 8

/-- A 16-bit value: the CRC register and the CRC constants (R8, R14). -/
abbrev Half := BitVec 16

/-- A 32-bit value: a status word, a counter, a reported position, a reported field (R14, R34, R80). -/
abbrev Word := BitVec 32

end Sys2Proof
end

