-- ==== Sys2Proof/Config.lean ====
section
/-!
DEFINITION. The configuration record: every construction-time parameter of the block (00_scope.md rules R3 to
R13), and the free bits that stand for the two parameters whose value no source gives (92_eei_decisions.md P1,
P2). The default values and the well-formedness check stand in `Sys2Proof/Machine/Params.lean`.
-/

namespace Sys2Proof

/-- The bit order of one field-table entry (R10). -/
inductive BitOrder where
  /-- The earliest bit of the field is its most significant bit (R202). -/
  | msbFirst
  /-- The earliest bit of the field is its least significant bit (R203). -/
  | lsbFirst
  deriving DecidableEq, Repr

/-- One entry `(name, off, width, order)` of `FIELD_TABLE` (R10). -/
structure FieldEntry where
  /-- The field's name; never sent on a channel (R205). -/
  name : String
  /-- The field's bit offset in the frame. -/
  off : Nat
  /-- The field's width in bits. -/
  width : Nat
  /-- The field's bit order. -/
  order : BitOrder
  deriving DecidableEq, Repr

/-- How much of the buffer a miss keeps (R13). -/
inductive TrimPolicy where
  /-- The source's formula: search `[0, L - F)` and advance by `L - F`. -/
  | retainF
  /-- The source's gloss: keep the last `F - 1` bits. -/
  | retainFMinus1
  deriving DecidableEq, Repr

/-- The construction-time parameters of one block (R3 to R13). No command writes any of them.
The CRC constants are 16-bit by type, which is condition 5 of R231 (assumption log 10). -/
structure Config where
  /-- `F`, the frame length in bits (R4). -/
  frameBits : Nat
  /-- `SYNC_W`, the sync word width in bits (R5). -/
  syncW : Nat
  /-- `SYNC_WORD`, the whitened sync word, which is the search pattern (R6). -/
  syncWord : List Bit
  /-- `WHITEN_MASK`; only its first `F` bits are used (R7). -/
  whitenMask : List Bit
  /-- `CRC_INIT` (R8). -/
  crcInit : Half
  /-- `CRC_POLY` (R8). -/
  crcPoly : Half
  /-- `CRC_XOROUT` (R8). -/
  crcXorout : Half
  /-- `CRC_COVER_BYTES` (R9). -/
  crcCoverBytes : Nat
  /-- `CRC_FIELD_OFFSET` (R9). -/
  crcFieldOffset : Nat
  /-- `FIELD_TABLE` (R10). -/
  fieldTable : List FieldEntry
  /-- `CHUNK_MAX_BYTES` (R11). -/
  chunkMaxBytes : Nat
  /-- `BUF_CAP_BITS` (R12). -/
  bufCapBits : Nat
  /-- `TRIM_POLICY` (R13). -/
  trimPolicy : TrimPolicy
  deriving DecidableEq, Repr

/-- Bit `i` of the sync word of the block that `State.reset` describes. FREE VALUE: the spec leaves
`SYNC_WORD` open (R6, P1), so nothing constrains these bits (assumption log 2). -/
opaque Config.openSyncBit : Nat → Bit

/-- Bit `i` of the whitening mask of the block that `State.reset` describes. FREE VALUE: the spec leaves
`WHITEN_MASK` open (R7, P2), so nothing constrains these bits (assumption log 2). -/
opaque Config.openMaskBit : Nat → Bit

end Sys2Proof
end

