-- ==== Sys2Proof/Machine/Params.lean ====
section
/-!
DEFINITION. The default parameter values of the spec, the configuration that `State.reset` describes, and the
configuration check `wf(config)` (00_scope.md rules R4 to R13, 44_field_decoder.md rule R201, 45_control.md rule
R231).
-/

namespace Sys2Proof.Machine

/-- The default `FIELD_TABLE` (R201). -/
def defaultFieldTable : List FieldEntry :=
  [⟨"mode", 40, 8, .msbFirst⟩, ⟨"client_id", 48, 32, .msbFirst⟩, ⟨"vendor_id", 80, 32, .msbFirst⟩,
   ⟨"roll", 112, 16, .msbFirst⟩, ⟨"pitch", 128, 16, .msbFirst⟩, ⟨"throttle", 144, 16, .msbFirst⟩,
   ⟨"yaw", 160, 16, .msbFirst⟩, ⟨"flip", 176, 8, .msbFirst⟩, ⟨"special", 184, 8, .msbFirst⟩,
   ⟨"crc", 192, 16, .msbFirst⟩]

/-- The configuration with every default of R4 to R13 and the four OPEN parameters P1 to P4 as arguments. -/
def defaultConfig (syncWord whitenMask : List Bit) (chunkMaxBytes bufCapBits : Nat) : Config :=
  { frameBits := 216
    syncW := 40
    syncWord := syncWord
    whitenMask := whitenMask
    crcInit := 0xB5D2#16
    crcPoly := 0x1021#16
    crcXorout := 0x61B1#16
    crcCoverBytes := 24
    crcFieldOffset := 192
    fieldTable := defaultFieldTable
    chunkMaxBytes := chunkMaxBytes
    bufCapBits := bufCapBits
    trimPolicy := .retainF }

/-- The configuration of the block that `State.reset` describes: the spec's defaults; `SYNC_WORD` and
`WHITEN_MASK` made of free bits (assumption log 2); `CHUNK_MAX_BYTES` and `BUF_CAP_BITS` at the largest values
that R231 condition 7 admits (DESIGN CHOICE, assumption log 3). -/
def referenceConfig : Config :=
  defaultConfig ((List.range 40).map Config.openSyncBit) ((List.range 216).map Config.openMaskBit)
    65535 (2 ^ 32 - 1)

/-- Condition 6 of R231 for one entry. -/
def entryWf (frameBits : Nat) (e : FieldEntry) : Bool :=
  decide (1 ≤ e.width) && decide (e.width ≤ 32) && decide (e.off + e.width ≤ frameBits)

/-- No two entries have the same name (R231, condition 6). -/
def namesDistinct : List FieldEntry → Bool
  | [] => true
  | e :: es => es.all (fun f => decide (e.name ≠ f.name)) && namesDistinct es

/-- Condition 6 of R231: 1 to 16 entries, each well formed, no two with one name. -/
def fieldTableWf (frameBits : Nat) (t : List FieldEntry) : Bool :=
  decide (1 ≤ t.length) && decide (t.length ≤ 16) && t.all (entryWf frameBits) && namesDistinct t

/-- `wf(config)` (R231): conditions 1, 2, 3, 4, 6 and 7. Conditions 5 and 8, and the legality of an entry's bit
order in condition 6, hold of every `Config` by its type. -/
def configWf (c : Config) : Bool :=
  decide (1 ≤ c.syncW) && decide (c.syncW ≤ c.frameBits) && decide (c.syncWord.length = c.syncW) &&
  decide (c.frameBits ≤ c.whitenMask.length) &&
  decide (1 ≤ c.crcCoverBytes) && decide (8 * c.crcCoverBytes ≤ c.frameBits) &&
  decide (c.crcFieldOffset + 16 ≤ c.frameBits) &&
  fieldTableWf c.frameBits c.fieldTable &&
  decide (1 ≤ c.chunkMaxBytes) && decide (c.chunkMaxBytes ≤ 65535) &&
  decide (c.frameBits + 8 * c.chunkMaxBytes ≤ c.bufCapBits) && decide (c.bufCapBits < 2 ^ 32)

end Sys2Proof.Machine
end

