-- ==== Sys2Proof/Syntax.lean ====
section
/-!
DEFINITION. The commands of the block, one constructor per row of spec/opcode_table.json (30_encoding.md rule
R73), and the four header bytes that every command begins with (R71).
-/

namespace Sys2Proof

/-- A legal command (R73, R77). APPEND is the only one with an operand (R76). -/
inductive Instr where
  /-- RESET: put the block into its reset state (R230). -/
  | reset
  /-- APPEND: add the payload bytes, earliest first, to the tail of the buffer (R100, R76). -/
  | append (payload : List Byte)
  /-- ATTEMPT: run one synchronisation attempt (R135). -/
  | attempt
  /-- STATUS: report the status words (R232). -/
  | status
  /-- END: the stream has ended (R233). -/
  | endStream
  deriving DecidableEq, Repr

/-- The four header bytes `h0 h1 h2 h3` of a command, in channel order (R71). -/
structure Header where
  h0 : Byte
  h1 : Byte
  h2 : Byte
  h3 : Byte
  deriving DecidableEq, Repr

end Sys2Proof
end

