-- ==== Sys2Proof/WellFormed.lean ====
section
/-!
DEFINITION. Which terms of `Instr` are commands that the channel can carry under a given `CHUNK_MAX_BYTES`
(30_encoding.md rules R71 and R74).
-/

namespace Sys2Proof

/-- The payload count fits the 16-bit `LEN` field (R71). -/
def Instr.lenFits : Instr → Bool
  | .reset => true
  | .append d => decide (d.length < 65536)
  | .attempt => true
  | .status => true
  | .endStream => true

/-- The payload is within `CHUNK_MAX_BYTES` (R74, condition 4). -/
def Instr.chunkFits (chunkMax : Nat) : Instr → Bool
  | .reset => true
  | .append d => decide (d.length ≤ chunkMax)
  | .attempt => true
  | .status => true
  | .endStream => true

/-- A command that has a legal encoding when `CHUNK_MAX_BYTES` is `chunkMax`. -/
def Instr.wellFormed (chunkMax : Nat) (i : Instr) : Bool :=
  i.lenFits && i.chunkFits chunkMax

end Sys2Proof
end

