-- ==== Sys2Proof/Decode.lean ====
section
/-!
DEFINITION. The command decoder, total on any byte sequence, and the encoder (30_encoding.md rules R70 to R77).
The channel is cut into a header and its `LEN` payload bytes before the command is judged (R72), so framing
survives an illegal header.
-/

namespace Sys2Proof

/-- The header word `H`, big-endian (R71). -/
def Header.toWord (h : Header) : Word := h.h0 ++ h.h1 ++ h.h2 ++ h.h3

/-- The four header bytes of a header word (R71). -/
def headerOfWord (w : Word) : Header :=
  ⟨w.extractLsb' 24 8, w.extractLsb' 16 8, w.extractLsb' 8 8, w.extractLsb' 0 8⟩

/-- `LEN`, the plain unsigned payload byte count `h2 * 256 + h3` (R71). -/
def Header.len (h : Header) : Nat := h.h2.toNat * 256 + h.h3.toNat

/-- The four header bytes in channel order. -/
def Header.bytes (h : Header) : List Byte := [h.h0, h.h1, h.h2, h.h3]

/-- Why R74 does not make a header legal. Every reason has the same effect (R75;
assumption log 12). -/
inductive IllegalReason where
  /-- `RSVD` is not 0x00 (R74, condition 1). -/
  | reservedNotZero
  /-- `OPC` is not one of 0x01 to 0x05 (R74, condition 2). -/
  | unknownOpcode
  /-- `LEN` is not 0 on a command other than APPEND (R74, condition 3). -/
  | payloadNotAllowed
  /-- `LEN` is above `CHUNK_MAX_BYTES` on APPEND (R74, condition 4). -/
  | chunkTooLong
  deriving DecidableEq, Repr

/-- What the decoder makes of one framed command (R77). -/
inductive Decoded where
  /-- A legal command. -/
  | command (i : Instr)
  /-- An illegal command, with its header and the condition of R74 it fails. -/
  | illegal (why : IllegalReason) (h : Header)
  deriving DecidableEq, Repr

/-- A command without payload: legal only with `LEN = 0` (R74, condition 3). -/
def noPayload (h : Header) (i : Instr) : Decoded :=
  if h.len = 0 then .command i else .illegal .payloadNotAllowed h

/-- The classification of a framed command (R73, R74, R77). -/
def classify (chunkMax : Nat) (h : Header) (payload : List Byte) : Decoded :=
  if h.h1 ≠ 0x00#8 then .illegal .reservedNotZero h
  else if h.h0 = 0x01#8 then noPayload h .reset
  else if h.h0 = 0x02#8 then
    if h.len ≤ chunkMax then .command (.append payload) else .illegal .chunkTooLong h
  else if h.h0 = 0x03#8 then noPayload h .attempt
  else if h.h0 = 0x04#8 then noPayload h .status
  else if h.h0 = 0x05#8 then noPayload h .endStream
  else .illegal .unknownOpcode h

/-- Cut one command off the front of the channel: the header, exactly `LEN` payload bytes, and the rest; `none`
while the `4 + LEN` bytes have not all arrived (R72). -/
def receive : List Byte → Option (Header × List Byte × List Byte)
  | h0 :: h1 :: h2 :: h3 :: rest =>
    let h : Header := ⟨h0, h1, h2, h3⟩
    if h.len ≤ rest.length then some (h, rest.take h.len, rest.drop h.len) else none
  | _ => none

/-- Decode the first command on the channel, and give the bytes after it; `none` while it is incomplete
(R72, R77). -/
def decode (chunkMax : Nat) (bytes : List Byte) : Option (Decoded × List Byte) :=
  match receive bytes with
  | none => none
  | some (h, payload, rest) => some (classify chunkMax h payload, rest)

/-- Cut a byte sequence into at most `fuel` commands; the second component is the trailing fragment, left
undecoded (R77). -/
def decodeUpTo (chunkMax : Nat) : Nat → List Byte → List Decoded × List Byte
  | 0, bytes => ([], bytes)
  | fuel + 1, bytes =>
    match decode chunkMax bytes with
    | none => ([], bytes)
    | some (d, rest) =>
      let later := decodeUpTo chunkMax fuel rest
      (d :: later.1, later.2)

/-- The decoder on a whole byte sequence (R77). Every command takes at least four bytes, so the sequence's own
length is fuel enough. -/
def decodeAll (chunkMax : Nat) (bytes : List Byte) : List Decoded × List Byte :=
  decodeUpTo chunkMax bytes.length bytes

/-- The header of a command: its opcode, `RSVD = 0x00` and its payload count (R71, R73). -/
def headerOf (opc : Byte) (len : Nat) : Header :=
  ⟨opc, 0x00#8, BitVec.ofNat 8 (len / 256), BitVec.ofNat 8 (len % 256)⟩

/-- The bytes of a well-formed command (R70 to R73, R76, R82). -/
def encode : Instr → List Byte
  | .reset => (headerOf 0x01#8 0).bytes
  | .append d => (headerOf 0x02#8 d.length).bytes ++ d
  | .attempt => (headerOf 0x03#8 0).bytes
  | .status => (headerOf 0x04#8 0).bytes
  | .endStream => (headerOf 0x05#8 0).bytes

/-- The channel bytes of the command whose bits are `w`, numbered as spec/opcode_table.json numbers them: the
header word `H` is bits 31 to 0 (R71), bit 32 on are the payload bytes, and every bit from `nbits` on is 0
(assumption log 18). -/
def tableBytes (nbits w : Nat) : List Byte :=
  let v := w % 2 ^ nbits
  let h := headerOfWord (BitVec.ofNat 32 v)
  h.bytes ++ (List.range h.len).map fun k => BitVec.ofNat 8 (v >>> (32 + 8 * k))

/-- The command that the decoder reads from a table word, under the reference configuration. -/
def decodeTableWord (nbits w : Nat) : Option Instr :=
  match decode Machine.referenceConfig.chunkMaxBytes (tableBytes nbits w) with
  | some (.command i, _) => some i
  | _ => none

end Sys2Proof
end

