-- ==== Sys2Proof/Machine/Bits.lean ====
section
/-!
DEFINITION. The notation of the spec as functions: bit sequences, their values read in either direction, bytes
and their bits, big-endian bytes of a value, and the in-range read `s[a +: n]` (00_scope.md rules R15 to R17).
-/

namespace Sys2Proof.Machine

/-- `be(s)`: the value of a bit sequence read most significant bit first (R16). -/
def be : List Bit → Nat
  | [] => 0
  | b :: s => b.toNat * 2 ^ s.length + be s

/-- `le(s)`: the value of a bit sequence read least significant bit first (R16). -/
def le : List Bit → Nat
  | [] => 0
  | b :: s => b.toNat + 2 * le s

/-- `bits8(b)`: the bits of a byte in stream order, `b[7]` first (R16, R53). -/
def bits8 (b : Byte) : List Bit :=
  [b.getLsbD 7, b.getLsbD 6, b.getLsbD 5, b.getLsbD 4, b.getLsbD 3, b.getLsbD 2, b.getLsbD 1, b.getLsbD 0]

/-- The bits of a byte list in stream order, the first byte first (R76). -/
def bitsOf (d : List Byte) : List Bit := d.flatMap bits8

/-- `s[a +: n]` as the spec reads it, `none` when `a + n` is past the end of `s` (R15, R17). -/
def slice (s : List Bit) (a n : Nat) : Option (List Bit) :=
  if a + n ≤ s.length then some ((s.drop a).take n) else none

/-- Byte `k` of a bit sequence: `be(s[8k +: 8])` (R16, R55). -/
def byteAt (s : List Bit) (k : Nat) : Byte := BitVec.ofNat 8 (be ((s.drop (8 * k)).take 8))

/-- `bytes(s)`: the bytes of a bit sequence whose length is a multiple of 8 (R16). -/
def bytesOf (s : List Bit) : List Byte := (List.range (s.length / 8)).map (byteAt s)

/-- `be16(x)`: the two bytes of `x`, most significant first (R135). -/
def be16 (x : Half) : List Byte := [x.extractLsb' 8 8, x.extractLsb' 0 8]

/-- `be32(x)`: the four bytes of `x`, most significant first (R135). -/
def be32 (x : Word) : List Byte :=
  [x.extractLsb' 24 8, x.extractLsb' 16 8, x.extractLsb' 8 8, x.extractLsb' 0 8]

/-- `s XOR t` of two equal-length bit sequences (R15). -/
def xorBits (s t : List Bit) : List Bit := List.zipWith xor s t

end Sys2Proof.Machine
end

