-- ==== Sys2Proof/Machine/Response.lean ====
section
/-!
DEFINITION. The responses of the block and their bytes on the response channel (30_encoding.md rules R78 to R80),
and the raised errors, which are the responses that leave every state element alone (60_exceptions.md rule R255).
-/

namespace Sys2Proof.Machine

/-- One response (R79). -/
inductive Response where
  /-- 0x00 OK: RESET, APPEND or END completed. -/
  | ok
  /-- 0x10 NO_FRAME: no sync word in the search window (NoSyncFound). -/
  | noFrame
  /-- 0x11 CRC_MISMATCH: a frame was found and discarded. -/
  | crcMismatch (start : Word) (computed rx : Half)
  /-- 0x12 PACKET: a decoded packet, one value per field-table entry. -/
  | packet (start : Word) (values : List Word)
  /-- 0x13 STATUS_REPORT: the status words of R34. -/
  | statusReport (words : List Word)
  /-- 0x20 ILLEGAL_COMMAND: the received header bytes (R256). -/
  | illegalCommand (h : Header)
  /-- 0x21 BUFFER_OVERFLOW: an APPEND that does not fit (R257). -/
  | bufferOverflow
  /-- 0x22 STREAM_ENDED: APPEND, ATTEMPT or END while `ENDED = 1` (R258). -/
  | streamEnded
  /-- 0x23 FORMAT_ERROR: APPEND, ATTEMPT or END while `CFG_OK = 0` (R253). -/
  | formatError
  deriving DecidableEq, Repr

/-- The response code `CODE` (R79). -/
def Response.code : Response → Byte
  | .ok => 0x00#8
  | .noFrame => 0x10#8
  | .crcMismatch _ _ _ => 0x11#8
  | .packet _ _ => 0x12#8
  | .statusReport _ => 0x13#8
  | .illegalCommand _ => 0x20#8
  | .bufferOverflow => 0x21#8
  | .streamEnded => 0x22#8
  | .formatError => 0x23#8

/-- The payload bytes of a response, every multi-byte value big-endian (R80). -/
def Response.payload : Response → List Byte
  | .ok => []
  | .noFrame => []
  | .crcMismatch start computed rx => be32 start ++ be16 computed ++ be16 rx
  | .packet start values => be32 start ++ values.flatMap be32
  | .statusReport words => words.flatMap be32
  | .illegalCommand h => h.bytes
  | .bufferOverflow => []
  | .streamEnded => []
  | .formatError => []

/-- The bytes of a response: `CODE`, 0x00, the payload count `N` as two bytes, then the payload (R78). -/
def Response.encode (r : Response) : List Byte :=
  [r.code, 0x00#8] ++ be16 (BitVec.ofNat 16 r.payload.length) ++ r.payload

/-- The errors that are raised (R255). -/
inductive RaisedError where
  /-- FormatError (R253). -/
  | formatError
  /-- StreamEnded (R258). -/
  | streamEnded
  /-- BufferOverflow (R257). -/
  | bufferOverflow
  /-- IllegalCommand, with the header it echoes (R256). -/
  | illegalCommand (h : Header)
  deriving DecidableEq, Repr

/-- The response of a raised error (R250). -/
def RaisedError.response : RaisedError → Response
  | .formatError => .formatError
  | .streamEnded => .streamEnded
  | .bufferOverflow => .bufferOverflow
  | .illegalCommand h => .illegalCommand h

end Sys2Proof.Machine
end

