-- ==== Sys2Proof/Machine/State.lean ====
section
/-!
DEFINITION. The state of the block, the reasons a step can stop, and the state after reset (10_state.md rules R20
to R37, 70_reset_and_hazards.md rule R280). State is plain data.
-/

namespace Sys2Proof.Machine

/-- What the host does at the block's two channels, or the integrator at its reset input (R266, R280, R282,
R284). The MODEL's own type: the host is the block's only other agent, and a list of these says what it does
and when the block has its turn (assumption log 5). -/
inductive HostAct where
  /-- The host puts one byte on the command channel (R70). -/
  | put (b : Byte)
  /-- The host takes the oldest byte from the response channel; with nothing there it takes nothing (R78, R282). -/
  | take
  /-- A power-on reset (R280). -/
  | powerOn
  /-- The host does nothing, and the block has its turn (R266). -/
  | wait
  deriving DecidableEq, Repr

/-- The state of the block. `buf` to `cntPkt` are the record of R20; `cfg` is the parameter record, which no
command writes (R3); `rx` and `resp` are the two channels; `taken` and `hostActs` are the model's own. -/
structure State where
  /-- The configuration, fixed for the life of the block (R3; assumption log 1). -/
  cfg : Config
  /-- `BUF`: the unconsumed bits of the stream, oldest first (R21; assumption log 9). -/
  buf : List Bit
  /-- `POS_HEAD`: the absolute stream position of `BUF[0]`, unbounded (R22). -/
  posHead : Nat
  /-- `ENDED`: the stream has ended (R24). -/
  ended : Bool
  /-- `CFG_OK`: the configuration passed its check (R25). -/
  cfgOk : Bool
  /-- `CNT_NOSYNC`: attempts that found no sync word, modulo 2^32 (R26). -/
  cntNoSync : Word
  /-- `CNT_CRCERR`: frames discarded for a CRC mismatch, modulo 2^32 (R27). -/
  cntCrcErr : Word
  /-- `CNT_PKT`: decoded packets emitted, modulo 2^32 (R28). -/
  cntPkt : Word
  /-- The command receiver: the bytes that have arrived on the command channel and belong to no command
  executed yet (R37, R282; assumption log 8). -/
  rx : List Byte
  /-- The response channel: bytes of a response that the host has not taken yet (R78, R282). -/
  resp : List Byte
  /-- MODEL's own: every response byte the host has taken, in order; the observation of a run (R234;
  assumption log 14). -/
  taken : List Byte
  /-- MODEL's own: what the host does next, in order (assumption log 5). -/
  hostActs : List HostAct
  deriving DecidableEq, Repr

/-- The internal failures of R105, R106 and R204, for which the spec wants no value. No command reaches one in a
state where `CFG_OK` is the result of the check on `cfg` (R52), so every one of them is SAFE: the model stops
where no real block can be (assumption log 11). -/
inductive Fault where
  /-- `slice` past the end of `BUF` (R105, I12). Raised by ATTEMPT only; unreachable; safe. -/
  | sliceOutOfRange
  /-- `advance` by more than `L` (R106, I13). Raised by ATTEMPT and END only; unreachable; safe. -/
  | advanceOutOfRange
  /-- `decode_fields` on a frame that is not `F` bits long (R204, I14). Raised by ATTEMPT only; unreachable;
  safe. -/
  | frameLength
  /-- A read of the mask, of the CRC cover, of the CRC field or of a table entry past the end of what it reads
  (R231, I15). Raised by ATTEMPT only, in a state whose `CFG_OK` is 1 for an ill-formed configuration;
  unreachable; safe. -/
  | parameterOutOfRange
  deriving DecidableEq, Repr

/-- Why a command has no meaning in the model. -/
inductive Refusal where
  /-- The command's arm has no meaning yet. Raised by the dispatcher only; safe. No arm uses it. -/
  | notModelled (mnemonic : String)
  deriving DecidableEq, Repr

/-- The block with configuration `c` right after power-on (R36, R280): every element of R20 at its reset value,
`CFG_OK` the result of the check, the receiver idle. The response channel, the host's record and the host's acts
are empty (assumption log 4). -/
def State.powerOn (c : Config) : State :=
  { cfg := c
    buf := []
    posHead := 0
    ended := false
    cfgOk := configWf c
    cntNoSync := 0#32
    cntCrcErr := 0#32
    cntPkt := 0#32
    rx := []
    resp := []
    taken := []
    hostActs := [] }

/-- The machine right after reset: the block with the reference configuration, after power-on (R36, R280). -/
def State.reset : State := State.powerOn referenceConfig

end Sys2Proof.Machine
end

