-- ==== Sys2Proof/Machine/Ops.lean ====
section
/-!
DEFINITION. The shared operations over the buffer, the channels and the counters: `find`, `advance`, `respond`,
`raise`, the counters, the reset of the state record, and what the host does at the channels (40_bitstream_buffer.md
rules R103 to R106, 00_scope.md rule R17, 60_exceptions.md rules R255, R259 and R265).
-/

namespace Sys2Proof.Machine

/-- What a command ends in. -/
abbrev Result := Host.Outcome State Fault Refusal

/-- The capacity check of the bit buffer, the block's only storage (R21, R50): a buffer is a plain list of bits, so
two equal buffers are equal data, and its length is at most `BUF_CAP_BITS`. -/
def Memory.wf (capBits : Nat) (buf : List Bit) : Bool := decide (buf.length ≤ capBits)

/-- Whether `pat` occurs in `buf` at offset `p`, wholly inside `buf` (R103). -/
def occursAt (pat buf : List Bit) (p : Nat) : Bool :=
  decide (p + pat.length ≤ buf.length) && decide ((buf.drop p).take pat.length = pat)

/-- `find(pat, from, to)`: the least offset in `[from, to)` at which `pat` occurs in `buf` (R103). -/
def find (pat buf : List Bit) (fromBit toBit : Nat) : Option Nat :=
  (List.range' fromBit (toBit - fromBit)).find? (occursAt pat buf)

/-- `advance(n)`: discard the first `n` bits of `BUF` and move the cursor forward by `n`; `none` is the failing
case (R106). -/
def advance (n : Nat) (s : State) : Option State :=
  if n ≤ s.buf.length then some { s with buf := s.buf.drop n, posHead := s.posHead + n } else none

/-- Add bits at the tail of `BUF`, the only way a bit enters it (R51, R100). -/
def appendBits (bits : List Bit) (s : State) : State := { s with buf := s.buf ++ bits }

/-- `respond(code, payload)`: send one response (R17, R78; assumption log 13). -/
def respond (r : Response) (s : State) : State := { s with resp := s.resp ++ r.encode }

/-- TAKING AN ERROR, for every raised error and every command: the response of the error, and no change to any
element of R20 (R17, R255). The block has no other trap entry, and no return from one (R260, R261). -/
def raiseError (e : RaisedError) (s : State) : State := respond e.response s

/-- Count an attempt that found no sync word, modulo 2^32 (R26, R265). -/
def countNoSync (s : State) : State := { s with cntNoSync := s.cntNoSync + 1#32 }

/-- Count a frame discarded for a CRC mismatch, modulo 2^32 (R27, R265). -/
def countCrcErr (s : State) : State := { s with cntCrcErr := s.cntCrcErr + 1#32 }

/-- Count a decoded packet, modulo 2^32 (R28, R265). -/
def countPkt (s : State) : State := { s with cntPkt := s.cntPkt + 1#32 }

/-- Every element of R20 at its reset value, `CFG_OK` checked anew (R36, R230); the channels are left alone
(assumption log 16). -/
def resetRecord (s : State) : State :=
  { State.powerOn s.cfg with rx := s.rx, resp := s.resp, taken := s.taken, hostActs := s.hostActs }

/-- A power-on reset: the effect of RESET with no response sent, and the receiver idle (R280). Response bytes the
host has not taken stay on their channel (R81; assumption log 6). -/
def powerOnReset (s : State) : State := { resetRecord s with rx := [] }

/-- One act of the host at the channels; `wait` does nothing (R70, R78, R280). -/
def hostAct (a : HostAct) (s : State) : State :=
  match a with
  | .put b => { s with rx := s.rx ++ [b] }
  | .take =>
    match s.resp with
    | [] => s
    | b :: rest => { s with resp := rest, taken := s.taken ++ [b] }
  | .powerOn => powerOnReset s
  | .wait => s

/-- The host takes the whole response that stands on the response channel (R282). -/
def takeResponse (s : State) : State := { s with resp := [], taken := s.taken ++ s.resp }

end Sys2Proof.Machine
end

