-- ==== Sys2Proof/Machine/Flags.lean ====
section
/-!
DEFINITION. The two flags of the block: the checks that read them and the status word that reports them
(10_state.md rules R24, R25, R31 and R34, 60_exceptions.md rule R259).
-/

namespace Sys2Proof.Machine

/-- The value of a one-bit flag as a word. -/
def flagBit (b : Bool) : Word := BitVec.ofNat 32 b.toNat

/-- FLAGS: bit 0 is `CFG_OK`, bit 1 is `ENDED`, bits 31:2 are 0 (R34, R232). -/
def flagsWord (s : State) : Word := flagBit s.cfgOk + 2#32 * flagBit s.ended

/-- The checks that APPEND, ATTEMPT and END share, in their order: FORMAT_ERROR while `CFG_OK = 0`, then
STREAM_ENDED while `ENDED = 1`, then the command itself (R253, R258, R259). -/
def whenOpen (s : State) (k : Result) : Result :=
  if s.cfgOk = false then .next (raiseError .formatError s)
  else if s.ended = true then .next (raiseError .streamEnded s)
  else k

end Sys2Proof.Machine
end

