-- ==== Sys2Proof/Machine/Operands.lean ====
section
/-!
DEFINITION. What a command reads: the bits of an APPEND payload, the bits of a frame, and the six status words
(30_encoding.md rule R76, 20_memory.md rules R53 to R55, 10_state.md rule R34).
-/

namespace Sys2Proof.Machine

/-- The bits that an APPEND payload adds, each byte most significant bit first (R53, R76, R100). -/
def payloadBits (d : List Byte) : List Bit := bitsOf d

/-- A read of a frame or of a parameter that a well-formed configuration keeps in range (R231, I15). -/
def readBits (s : List Bit) (a n : Nat) : Except Fault (List Bit) :=
  match slice s a n with
  | some bits => .ok bits
  | none => .error .parameterOutOfRange

/-- The six status words, in order (R34, R232; assumption log 17). -/
def statusWords (s : State) : List Word :=
  [flagsWord s, BitVec.ofNat 32 s.buf.length, BitVec.ofNat 32 s.posHead, s.cntNoSync, s.cntCrcErr, s.cntPkt]

end Sys2Proof.Machine
end

