-- ==== Sys2Proof/Machine/Buffer.lean ====
section
/-!
DEFINITION. The meaning of APPEND (40_bitstream_buffer.md rules R100 to R102).
-/

namespace Sys2Proof.Machine

/-- APPEND (R100): all of the payload's bits at the tail, or BUFFER_OVERFLOW and none of them (R101). -/
def execAppend (d : List Byte) (s : State) : Result :=
  whenOpen s
    (if s.buf.length + 8 * d.length > s.cfg.bufCapBits then .next (raiseError .bufferOverflow s)
     else .next (respond .ok (appendBits (payloadBits d) s)))

end Sys2Proof.Machine
end

