-- ==== Sys2Proof/Machine/Control.lean ====
section
/-!
DEFINITION. The meanings of RESET, STATUS and END (45_control.md rules R230, R232 and R233).
-/

namespace Sys2Proof.Machine

/-- RESET (R230): every element of R20 at its reset value, in every state, and the response OK. -/
def execReset (s : State) : Result := .next (respond .ok (resetRecord s))

/-- STATUS (R232): the six status words, in every state, and no change. -/
def execStatus (s : State) : Result := .next (respond (.statusReport (statusWords s)) s)

/-- END (R233): drop the buffer without a search and close the stream. -/
def execEndStream (s : State) : Result :=
  whenOpen s
    (match advance s.buf.length s with
     | none => .fault .advanceOutOfRange
     | some t => .next (respond .ok { t with ended := true }))

end Sys2Proof.Machine
end

