-- ==== Sys2Proof/Machine/Crc.lean ====
section
/-!
DEFINITION. The CRC-16 validator (43_crc16.md rules R180 to R185).
-/

namespace Sys2Proof.Machine

/-- One round of the CRC register: shift left by one, and XOR `CRC_POLY` in when the bit shifted out was 1
(R180). -/
def crcRound (poly r : Half) : Half := if r.getLsbD 15 then (r <<< 1) ^^^ poly else r <<< 1

/-- `n` rounds of the CRC register (R180). -/
def crcRounds (poly : Half) : Nat → Half → Half
  | 0, r => r
  | n + 1, r => crcRounds poly n (crcRound poly r)

/-- One byte into the CRC register: XOR it into the high byte, then 8 rounds (R180). -/
def crcByte (poly r : Half) (m : Byte) : Half := crcRounds poly 8 (r ^^^ (m.setWidth 16 <<< 8))

/-- `crc16(bytes)` (R180). -/
def crc16 (c : Config) (m : List Byte) : Half := m.foldl (crcByte c.crcPoly) c.crcInit ^^^ c.crcXorout

/-- One round of an unmasked register: a natural number that may grow past 16 bits (R184). -/
def wideRound (poly r : Nat) : Nat := if r.testBit 15 then (r <<< 1) ^^^ poly else r <<< 1

/-- `n` rounds of an unmasked register (R184). -/
def wideRounds (poly : Nat) : Nat → Nat → Nat
  | 0, r => r
  | n + 1, r => wideRounds poly n (wideRound poly r)

/-- One byte into the register with the source's masking, to 16 bits after the byte's 8 rounds (R184). The machine
itself masks after each round. -/
def lateMaskByte (poly r : Nat) (m : Byte) : Nat := wideRounds poly 8 (r ^^^ (m.toNat <<< 8)) % 2 ^ 16

/-- The CRC with the source's masking (R184). -/
def lateMaskCrc (c : Config) (m : List Byte) : Nat :=
  m.foldl (lateMaskByte c.crcPoly.toNat) c.crcInit.toNat ^^^ c.crcXorout.toNat

/-- The CRC's input: the first `CRC_COVER_BYTES` bytes of the dewhitened frame (R181). -/
def crcInput (c : Config) (clr : List Bit) : Except Fault (List Byte) := do
  let bits ← readBits clr 0 (8 * c.crcCoverBytes)
  return bytesOf bits

/-- The transmitted CRC: 16 dewhitened bits at `CRC_FIELD_OFFSET`, most significant first (R182). -/
def crcReceived (c : Config) (clr : List Bit) : Except Fault Half := do
  let bits ← readBits clr c.crcFieldOffset 16
  return BitVec.ofNat 16 (be bits)

end Sys2Proof.Machine
end

