-- ==== Sys2Proof/Machine/Dewhiten.lean ====
section
/-!
DEFINITION. The dewhitener (42_dewhitener.md rules R160 to R164).
-/

namespace Sys2Proof.Machine

/-- `dewhiten(raw)`: the frame XOR the first `F` bits of the mask, mask bit 0 on frame bit 0 (R160, R161). -/
def dewhiten (c : Config) (raw : List Bit) : Except Fault (List Bit) := do
  let mask ← readBits c.whitenMask 0 c.frameBits
  return xorBits raw mask

end Sys2Proof.Machine
end

