-- ==== Sys2Proof/Machine/Fields.lean ====
section
/-!
DEFINITION. The field decoder (44_field_decoder.md rules R200 to R207).
-/

namespace Sys2Proof.Machine

/-- The value of a field's bits under its bit order (R202, R203). -/
def fieldValue (order : BitOrder) (bits : List Bit) : Nat :=
  match order with
  | .msbFirst => be bits
  | .lsbFirst => le bits

/-- One field of the dewhitened frame, zero-extended to 32 bits (R200, R205). -/
def readField (clr : List Bit) (e : FieldEntry) : Except Fault Word := do
  let bits ← readBits clr e.off e.width
  return BitVec.ofNat 32 (fieldValue e.order bits)

/-- Every field of a table, in table order (R200). -/
def readFields (clr : List Bit) : List FieldEntry → Except Fault (List Word)
  | [] => .ok []
  | e :: es => do
    let v ← readField clr e
    let vs ← readFields clr es
    return v :: vs

/-- `decode_fields(clr)` (R200). A frame that is not `F` bits long is the fault of R204. -/
def decodeFields (c : Config) (clr : List Bit) : Except Fault (List Word) :=
  if clr.length ≠ c.frameBits then .error .frameLength else readFields clr c.fieldTable

end Sys2Proof.Machine
end

