-- ==== Sys2Proof/Machine/Sync.lean ====
section
/-!
DEFINITION. The meaning of ATTEMPT: the search window, the hit path with the decode pipeline, and the miss path
(41_frame_sync.md rules R130 to R142).
-/

namespace Sys2Proof.Machine

/-- `searchLimit(L)`: one past the last start offset of the search window (R131). Natural-number subtraction
saturates at 0, which is the spec's `sat`. -/
def searchLimit (c : Config) (len : Nat) : Nat :=
  match c.trimPolicy with
  | .retainF => len - c.frameBits
  | .retainFMinus1 => len + 1 - c.frameBits

/-- What the pipeline makes of one extracted frame (R135, R207). -/
inductive FrameOutcome where
  /-- The computed CRC is not the transmitted one. -/
  | mismatch (computed rx : Half)
  /-- The CRC validates: the decoded field values. -/
  | packet (values : List Word)
  deriving DecidableEq, Repr

/-- The pipeline on one extracted frame: dewhiten, validate the CRC, and only then decode the fields (R135, R183,
R207). It depends on the frame and the configuration alone (R32). -/
def processFrame (c : Config) (raw : List Bit) : Except Fault FrameOutcome := do
  let clr ← dewhiten c raw
  let covered ← crcInput c clr
  let rx ← crcReceived c clr
  let computed := crc16 c covered
  if computed ≠ rx then return .mismatch computed rx
  else
    let values ← decodeFields c clr
    return .packet values

/-- The miss path: trim the buffer by `lim` bits, count, and answer NO_FRAME (R133, R135). -/
def missPath (lim : Nat) (s : State) : Result :=
  match advance lim s with
  | none => .fault .advanceOutOfRange
  | some t => .next (respond .noFrame (countNoSync t))

/-- `START`: the stream position of a frame's first bit, modulo 2^32 (R134). -/
def startWord (s : State) (p : Nat) : Word := BitVec.ofNat 32 (s.posHead + p)

/-- The end of the hit path: count the outcome and answer it (R135). `t` is the state after the advance. -/
def finishFrame (start : Word) (o : FrameOutcome) (t : State) : State :=
  match o with
  | .mismatch computed rx => respond (.crcMismatch start computed rx) (countCrcErr t)
  | .packet values => respond (.packet start values) (countPkt t)

/-- The hit path at offset `p`: extract the frame, advance past it, and run the pipeline on it (R132, R135). -/
def hitPath (p : Nat) (s : State) : Result :=
  match slice s.buf p s.cfg.frameBits with
  | none => .fault .sliceOutOfRange
  | some raw =>
    match advance (p + s.cfg.frameBits) s with
    | none => .fault .advanceOutOfRange
    | some t =>
      match processFrame s.cfg raw with
      | .error f => .fault f
      | .ok o => .next (finishFrame (startWord s p) o t)

/-- One synchronisation attempt on the state that passed the checks (R130, R135). -/
def attemptOnce (s : State) : Result :=
  match find s.cfg.syncWord s.buf 0 (searchLimit s.cfg s.buf.length) with
  | none => missPath (searchLimit s.cfg s.buf.length) s
  | some p => hitPath p s

/-- ATTEMPT (R135). -/
def execAttempt (s : State) : Result := whenOpen s (attemptOnce s)

end Sys2Proof.Machine
end

