-- ==== Sys2Proof/Machine/Dispatch.lean ====
section
/-!
DEFINITION. One arm per command of the opcode table (30_encoding.md rule R73).
-/

namespace Sys2Proof.Machine

def exec (i : Instr) (s : State) : Host.Outcome State Fault Refusal :=
  match i with
  | .reset => Sys2Proof.Machine.execReset s
  | .append d => Sys2Proof.Machine.execAppend d s
  | .attempt => Sys2Proof.Machine.execAttempt s
  | .status => Sys2Proof.Machine.execStatus s
  | .endStream => Sys2Proof.Machine.execEndStream s

end Sys2Proof.Machine
end

