-- ==== Sys2Proof/Machine/Turn.lean ====
section
/-!
DEFINITION. The block's turn: hold while a response is not taken, wait for a whole command, then run it
(70_reset_and_hazards.md rules R282 and R284, 60_exceptions.md rules R266 and R267). And the bytes of one command
placed in the command receiver.
-/

namespace Sys2Proof.Machine

/-- One framed command (R77): a legal one runs, and an illegal one raises ILLEGAL_COMMAND before anything else
is checked (R75, R256, R259). -/
def runDecoded (d : Decoded) (s : State) : Result :=
  match d with
  | .command i => exec i s
  | .illegal _ h => .next (raiseError (.illegalCommand h) s)

/-- The block's turn. While a response is not taken, or no complete command has arrived, the block takes no step
and keeps all its state (R37, R267, R282, R284). Otherwise it takes the command's `4 + LEN` bytes from the
receiver and runs it, whole (R58, R72). -/
def blockTurn (s : State) : Result :=
  match s.resp with
  | _ :: _ => .next s
  | [] =>
    match decode s.cfg.chunkMaxBytes s.rx with
    | none => .next s
    | some (d, rest) => runDecoded d { s with rx := rest }

/-- `s` with the command of the table word `w` as the only bytes in the receiver, the response channel empty and
the turn the block's, so that the next step runs that command. -/
def placeCommand (s : State) (nbits w : Nat) : State :=
  { s with rx := tableBytes nbits w, resp := [], hostActs := [] }

end Sys2Proof.Machine
end

