-- ==== Sys2Proof/Machine/Step.lean ====
section
/-!
DEFINITION. The step of the machine (00_scope.md rule R18): the host's next act, or the block's turn.
-/

namespace Sys2Proof.Machine

/-- One step. With acts of the host listed, the first of them happens, and `wait` gives the block its turn; with
none listed, the block has its turn (R18, R60, R266; assumption logs 5 and 15). -/
def step (s : State) : Host.Outcome State Fault Refusal :=
  match s.hostActs with
  | [] => blockTurn s
  | .wait :: acts => blockTurn { s with hostActs := acts }
  | a :: acts => .next (hostAct a { s with hostActs := acts })

/-- `s` with the command of a table word placed where `step` takes its next command from. The block fetches no
program (R30, R62): a command reaches the receiver from the host (assumption log 7). -/
def State.withFetchWord (s : State) (nbits w : Nat) : State := placeCommand s nbits w

end Sys2Proof.Machine
end

