-- ==== Sys2Proof/Machine/ShiftSearch.lean ====
section
/-!
DEFINITION. A `SYNC_W`-bit shift register compared against the pattern at each bit: the search algorithm that
40_bitstream_buffer.md rule R104 names as one that conforms. The machine itself uses `find`.
-/

namespace Sys2Proof.Machine

/-- Shift one bit into a register of `width` bits, the earliest bit falling out. -/
def shiftIn (width : Nat) (reg : List Bit) (b : Bit) : List Bit :=
  let grown := reg ++ [b]
  grown.drop (grown.length - width)

/-- Shift the bits in one by one; `seen` bits have gone in before. The first offset in `[fromBit, toBit)` at which
the register holds the pattern is the answer (R104). -/
def shiftScan (pat : List Bit) (fromBit toBit : Nat) : List Bit → Nat → List Bit → Option Nat
  | _, _, [] => none
  | reg, seen, b :: rest =>
    let reg' := shiftIn pat.length reg b
    if reg' = pat ∧ fromBit + pat.length ≤ seen + 1 ∧ seen + 1 < toBit + pat.length then
      some (seen + 1 - pat.length)
    else shiftScan pat fromBit toBit reg' (seen + 1) rest

/-- The search with a shift register that starts empty (R104). -/
def shiftFind (pat buf : List Bit) (fromBit toBit : Nat) : Option Nat := shiftScan pat fromBit toBit [] 0 buf

end Sys2Proof.Machine
end

