-- ==== Sys2Proof/Machine/HostLoop.lean ====
section
/-!
DEFINITION. The host's side of the command interface: one command and its response, a list of commands, the
pseudo-commands DRAIN and FEED, and the reference host loop (30_encoding.md rule R83, 70_reset_and_hazards.md
rules R282 and R285). They are compositions of the commands' meanings and give the block no new behaviour.
-/

namespace Sys2Proof.Machine

/-- One command as the block receives it: its bytes go through the decoder, so an APPEND whose payload is above
`CHUNK_MAX_BYTES` is an illegal command here as on the channel (R74, R75, R77). A payload whose count does not fit `LEN`
has no encoding (R71): there is no such command to send, and nothing happens (assumption log 20). Irreducible, so that a
proof cites the lemmas `sendCommand_…` and does not evaluate the decoder. -/
@[irreducible] def sendCommand (i : Instr) (s : State) : Result :=
  if i.lenFits then
    match decode s.cfg.chunkMaxBytes (encode i) with
    | none => .next s
    | some (d, _) => runDecoded d s
  else .next s

/-- The host, having read everything sent so far, sends one command and reads its whole response (R282): the
response's bytes, and the state after. -/
def issue (i : Instr) (s : State) : Host.Outcome (List Byte × State) Fault Refusal :=
  match sendCommand i (takeResponse s) with
  | .next t => .next (t.resp, takeResponse t)
  | .fault f => .fault f
  | .refused r => .refused r

/-- A run (R234): the commands the host sends, one after another, each with its response, and the state at the
end; `none` if one of them ends in a fault or a refusal. -/
def runCommands : List Instr → State → Option (List (Instr × List Byte) × State)
  | [], s => some ([], s)
  | i :: is, s =>
    match issue i s with
    | .next (resp, t) => (runCommands is t).map fun r => ((i, resp) :: r.1, r.2)
    | _ => none

/-- The bits that the APPENDs of a run put on the stream: those answered OK (R100, R101). -/
def appendedBits : List (Instr × List Byte) → List Bit
  | [] => []
  | (.append d, resp) :: log => (if resp = Response.ok.encode then payloadBits d else []) ++ appendedBits log
  | _ :: log => appendedBits log

/-- `START` of a CRC_MISMATCH or PACKET response, read from its bytes (R80, R134); `none` for every other
response. -/
def responseStart : List Byte → Option Word
  | c :: _ :: _ :: _ :: b0 :: b1 :: b2 :: b3 :: _ =>
    if c = 0x11#8 ∨ c = 0x12#8 then some (b0 ++ b1 ++ b2 ++ b3) else none
  | _ => none

/-- Whether a response is that of a hit, CRC_MISMATCH or PACKET (R79, R135). -/
def isHit (resp : List Byte) : Bool := resp.head? = some 0x11#8 || resp.head? = some 0x12#8

/-- DRAIN with at most `fuel` ATTEMPTs: send ATTEMPT until a response is no hit (R83); `none` if all `fuel` of them
were hits. -/
def drain : Nat → State → Option Result
  | 0, _ => none
  | fuel + 1, s =>
    match issue .attempt s with
    | .next (resp, t) => if isHit resp then drain fuel t else some (.next t)
    | .fault f => some (.fault f)
    | .refused r => some (.refused r)

/-- As many ATTEMPTs as a DRAIN can take, by R137. -/
def drainFuel (s : State) : Nat := s.buf.length / s.cfg.frameBits + 1

/-- FEED: APPEND the chunk, then DRAIN, whatever the APPEND is answered (R83). A chunk above `CHUNK_MAX_BYTES` is answered
ILLEGAL_COMMAND and adds nothing (R74, R75). -/
def feed (d : List Byte) (s : State) : Option Result :=
  match issue (.append d) s with
  | .next (_, t) => drain (drainFuel t) t
  | .fault f => some (.fault f)
  | .refused r => some (.refused r)

/-- FEED for every chunk of a list, in order (R285). -/
def feedAll : List (List Byte) → State → Option Result
  | [], s => some (.next s)
  | d :: ds, s =>
    match feed d s with
    | some (.next t) => feedAll ds t
    | r => r

/-- The reference host loop: FEED each chunk, then DRAIN, then END (R285). The duty to send a refused chunk again
does not arise in it: after a DRAIN every legal APPEND fits (R257). -/
def referenceLoop (chunks : List (List Byte)) (s : State) : Option Result :=
  match feedAll chunks s with
  | some (.next t) =>
    match drain (drainFuel t) t with
    | some (.next u) =>
      match issue .endStream u with
      | .next (_, v) => some (.next v)
      | .fault f => some (.fault f)
      | .refused r => some (.refused r)
    | r => r
  | r => r

end Sys2Proof.Machine
end

