-- ==== Sys2Proof/Safety.lean ====
section
/-!
DEFINITION. The terms that claims use: which states the block can be in, what an open stream is, where a sync word
match begins, what one frame decodes to, and the frame starts that the appended stream fixes.
-/

namespace Sys2Proof.Machine

/-- The invariant of the block (R21, R24, R25, R253): `CFG_OK` is the result of the check on the configuration; the
buffer is within its capacity; after END nothing is left in it; and under a malformed configuration the record is
still that of the reset. -/
structure State.Inv (s : State) : Prop where
  /-- R25. -/
  cfgOk_eq : s.cfgOk = configWf s.cfg
  /-- R21. -/
  buf_wf : Memory.wf s.cfg.bufCapBits s.buf = true
  /-- R24, R233. -/
  ended_empty : s.ended = true → s.buf = []
  /-- R253. -/
  malformed_still : s.cfgOk = false →
    s.buf = [] ∧ s.posHead = 0 ∧ s.ended = false ∧ s.cntNoSync = 0#32 ∧ s.cntCrcErr = 0#32 ∧ s.cntPkt = 0#32

/-- `k` steps of the machine, stopping at the first that does not answer a next state: the host interface's run. -/
def runSteps (k : Nat) (s : State) : Result := Host.Core.run Sys2Proof.core k s

/-- The checks of R259 pass for APPEND, ATTEMPT and END. -/
def State.Open (s : State) : Prop := s.cfgOk = true ∧ s.ended = false

/-- `POS_TAIL`: the number of stream bits appended since the last reset; derived, not stored (R23). -/
def posTail (s : State) : Nat := s.posHead + s.buf.length

/-- The two states agree in every element of R20 and in the configuration. -/
def SameRecord (s t : State) : Prop :=
  t.cfg = s.cfg ∧ t.buf = s.buf ∧ t.posHead = s.posHead ∧ t.ended = s.ended ∧ t.cfgOk = s.cfgOk ∧
  t.cntNoSync = s.cntNoSync ∧ t.cntCrcErr = s.cntCrcErr ∧ t.cntPkt = s.cntPkt

/-- An ATTEMPT in `s` hits at offset `p`: a match begins there inside the window, and none before it (R103, R131,
R132). -/
def HitsAt (s : State) (p : Nat) : Prop :=
  p < searchLimit s.cfg s.buf.length ∧ occursAt s.cfg.syncWord s.buf p = true ∧
  ∀ q < p, occursAt s.cfg.syncWord s.buf q = false

/-- No match begins inside the window of an ATTEMPT in `s` (R133). -/
def Misses (s : State) : Prop :=
  ∀ q < searchLimit s.cfg s.buf.length, occursAt s.cfg.syncWord s.buf q = false

/-! What the spec's formulas give for one frame, with every read in range. -/

/-- The dewhitened frame (R160). -/
def cleartext (c : Config) (raw : List Bit) : List Bit := xorBits raw (c.whitenMask.take c.frameBits)

/-- What the CRC validator computes of a dewhitened frame (R181). -/
def crcComputed (c : Config) (clr : List Bit) : Half := crc16 c (bytesOf (clr.take (8 * c.crcCoverBytes)))

/-- What a dewhitened frame carries as its CRC (R182). -/
def crcCarried (c : Config) (clr : List Bit) : Half := BitVec.ofNat 16 (be ((clr.drop c.crcFieldOffset).take 16))

/-- The field values of a dewhitened frame (R200). -/
def fieldWords (c : Config) (clr : List Bit) : List Word :=
  c.fieldTable.map fun e => BitVec.ofNat 32 (fieldValue e.order ((clr.drop e.off).take e.width))

/-- The response to the frame that starts at position `q` of a stream (R80, R135). -/
def frameResponse (c : Config) (stream : List Bit) (q : Nat) : List Byte :=
  let clr := cleartext c ((stream.drop q).take c.frameBits)
  if crcComputed c clr ≠ crcCarried c clr then
    (Response.crcMismatch (BitVec.ofNat 32 q) (crcComputed c clr) (crcCarried c clr)).encode
  else (Response.packet (BitVec.ofNat 32 q) (fieldWords c clr)).encode

/-- The frame starts that a stream fixes, at most `fuel` of them from position `pos` on: the lowest position at or after
`pos` at which the sync word occurs, then the lowest at or after the end of that frame, and so on (R142). -/
def frameStarts (sync : List Bit) (frameBits : Nat) (stream : List Bit) : Nat → Nat → List Nat
  | 0, _ => []
  | fuel + 1, pos =>
    match find sync stream pos stream.length with
    | none => []
    | some q => q :: frameStarts sync frameBits stream fuel (q + frameBits)

/-- Consecutive APPENDs, every one of them answered OK, with nothing in between (R102). -/
def appendAll : List (List Byte) → State → Option State
  | [], s => some s
  | d :: ds, s =>
    match issue (.append d) s with
    | .next (resp, t) => if resp = Response.ok.encode then appendAll ds t else none
    | _ => none

end Sys2Proof.Machine
end

