-- ==== Sys2Proof/Certificates/Slice0/Obligations.lean ====
section
/-!
DEFINITION. The statements about the block. Every statement quantifies over every configuration, so none rests on
the reference configuration's chosen values.
-/

open Sys2Proof Sys2Proof.Machine

/-! ## Encoding -/

/-- R70 to R73, R76: the bytes of a well-formed command decode to that command, whatever follows them. -/
def Obligations.DecodeOfEncode : Prop :=
  ∀ (chunkMax : Nat) (i : Instr) (rest : List Byte), i.wellFormed chunkMax = true →
    decode chunkMax (encode i ++ rest) = some (.command i, rest)

/-- R73, R77: a decoded command is well formed, and the bytes it was decoded from are its encoding. -/
def Obligations.EncodeOfDecode : Prop :=
  ∀ (chunkMax : Nat) (i : Instr) (bytes rest : List Byte), decode chunkMax bytes = some (.command i, rest) →
    i.wellFormed chunkMax = true ∧ bytes = encode i ++ rest

/-- R74: a header is legal exactly when its four conditions hold. -/
def Obligations.LegalHeaders : Prop :=
  ∀ (chunkMax : Nat) (h : Header) (payload : List Byte),
    (∃ i, classify chunkMax h payload = .command i) ↔
      (h.h1 = 0x00#8 ∧ (0x01#8 ≤ h.h0 ∧ h.h0 ≤ 0x05#8) ∧
        (h.h0 ≠ 0x02#8 → h.h2.toNat * 256 + h.h3.toNat = 0) ∧
        (h.h0 = 0x02#8 → h.h2.toNat * 256 + h.h3.toNat ≤ chunkMax))

/-- R72: the receiver takes a header and exactly `LEN` more bytes, legal or not, and takes nothing before they have
all arrived. -/
def Obligations.CommandOccupiesItsBytes : Prop :=
  (∀ (h : Header) (payload rest : List Byte), payload.length = h.h2.toNat * 256 + h.h3.toNat →
    receive ([h.h0, h.h1, h.h2, h.h3] ++ payload ++ rest) = some (h, payload, rest)) ∧
  (∀ bytes : List Byte, receive bytes = none ↔
    (bytes.length < 4 ∨ ∃ h0 h1 h2 h3 tail, bytes = h0 :: h1 :: h2 :: h3 :: tail ∧
      tail.length < h2.toNat * 256 + h3.toNat))

/-- R77: a byte sequence is cut into its commands, in order, and a trailing fragment is left undecoded. -/
def Obligations.StreamIsCutIntoCommands : Prop :=
  ∀ (chunkMax : Nat) (cmds : List (Header × List Byte)) (fragment : List Byte),
    (∀ c ∈ cmds, c.2.length = c.1.h2.toNat * 256 + c.1.h3.toNat) → receive fragment = none →
    decodeAll chunkMax ((cmds.flatMap fun c => [c.1.h0, c.1.h1, c.1.h2, c.1.h3] ++ c.2) ++ fragment) =
      (cmds.map fun c => classify chunkMax c.1 c.2, fragment)

/-- R73, R82: the words of the opcode map, written out. -/
def Obligations.SampleWords : Prop :=
  decode 32 [0x01#8, 0x00#8, 0x00#8, 0x00#8] = some (.command .reset, []) ∧
  decode 32 [0x02#8, 0x00#8, 0x00#8, 0x02#8, 0xA5#8, 0xF0#8] = some (.command (.append [0xA5#8, 0xF0#8]), []) ∧
  decode 32 [0x03#8, 0x00#8, 0x00#8, 0x00#8] = some (.command .attempt, []) ∧
  decode 32 [0x04#8, 0x00#8, 0x00#8, 0x00#8] = some (.command .status, []) ∧
  decode 32 [0x05#8, 0x00#8, 0x00#8, 0x00#8] = some (.command .endStream, [])

/-! ## The step and the channels -/

/-- R18, R72: with no response outstanding, the block's turn runs the command that the receiver's bytes decode to,
having taken its bytes; the turn is the block's when no act of the host is listed, or when the first is `wait`. -/
def Obligations.StepRunsTheDecodedCommand : Prop :=
  ∀ (s : State) (i : Instr) (rest : List Byte), s.resp = [] →
    decode s.cfg.chunkMaxBytes s.rx = some (.command i, rest) →
    (s.hostActs = [] → step s = exec i { s with rx := rest }) ∧
    (∀ acts, s.hostActs = .wait :: acts → step s = exec i { s with rx := rest, hostActs := acts })

/-- R75, R256, R259: an illegal command is answered ILLEGAL_COMMAND with its header echoed, in every state; its
payload is thrown away and nothing else changes. -/
def Obligations.IllegalCommandIsEchoed : Prop :=
  ∀ (s : State) (h : Header) (payload rest : List Byte),
    s.hostActs = [] → s.resp = [] → s.rx = [h.h0, h.h1, h.h2, h.h3] ++ payload ++ rest →
    payload.length = h.h2.toNat * 256 + h.h3.toNat →
    ¬ (h.h1 = 0x00#8 ∧ (0x01#8 ≤ h.h0 ∧ h.h0 ≤ 0x05#8) ∧
        (h.h0 ≠ 0x02#8 → h.h2.toNat * 256 + h.h3.toNat = 0) ∧
        (h.h0 = 0x02#8 → h.h2.toNat * 256 + h.h3.toNat ≤ s.cfg.chunkMaxBytes)) →
    step s = .next { s with rx := rest,
                            resp := [0x20#8, 0x00#8, 0x00#8, 0x04#8, h.h0, h.h1, h.h2, h.h3] }

/-- R37, R267, R282, R284: while a response is not taken, or no complete command has arrived, the block left to itself
keeps all its state, however many turns it gets. -/
def Obligations.BlockHoldsForever : Prop :=
  ∀ (s : State) (k : Nat), s.hostActs = [] → (s.resp ≠ [] ∨ receive s.rx = none) →
    runSteps k s = .next s

/-- R70, R72: a host that puts a command's bytes one by one on the channel of an idle block, and then gives the block
its turn, has exactly that command run. -/
def Obligations.CommandSentByteByByteRuns : Prop :=
  ∀ (s : State) (i : Instr), s.rx = [] → s.resp = [] → i.wellFormed s.cfg.chunkMaxBytes = true →
    runSteps ((encode i).length + 1)
        { s with hostActs := (encode i).map HostAct.put ++ [.wait] } =
      exec i { s with hostActs := [] }

/-- R280: a power-on reset leaves the record as RESET leaves it, with the receiver idle and no response sent. That the
response bytes not yet taken stay on their channel, and that every byte in the receiver is dropped, is the model's
reading (assumption log 6). -/
def Obligations.PowerOnResets : Prop :=
  ∀ (s : State) (acts : List HostAct), s.hostActs = .powerOn :: acts →
    step s = .next { s with buf := [], posHead := 0, ended := false, cfgOk := configWf s.cfg,
                            cntNoSync := 0#32, cntCrcErr := 0#32, cntPkt := 0#32, rx := [], hostActs := acts }

/-- R70, R78, R282, R286: a put adds exactly its byte at the tail of the command channel; a take moves exactly the oldest
untaken response byte to the end of what the host has taken, and with nothing there takes nothing; neither changes
anything else, so neither touches the block's record, and no response byte is lost. That the host's acts are listed in
the state, and that the bytes taken are recorded, is the model's choice (assumption logs 5 and 14). -/
def Obligations.HostTouchesOnlyTheChannels : Prop :=
  (∀ (s : State) (b : Byte) (acts : List HostAct), s.hostActs = .put b :: acts →
    step s = .next { s with rx := s.rx ++ [b], hostActs := acts }) ∧
  (∀ (s : State) (b : Byte) (rest : List Byte) (acts : List HostAct), s.hostActs = .take :: acts → s.resp = b :: rest →
    step s = .next { s with resp := rest, taken := s.taken ++ [b], hostActs := acts }) ∧
  (∀ (s : State) (acts : List HostAct), s.hostActs = .take :: acts → s.resp = [] →
    step s = .next { s with hostActs := acts }) ∧
  (∀ (s t : State) (a : HostAct) (acts : List HostAct), s.hostActs = a :: acts → a ≠ .wait → a ≠ .powerOn →
    step s = .next t → SameRecord s t ∧ s.taken ++ s.resp = t.taken ++ t.resp)

/-- R81: what the block has sent stays sent, in order: a step only adds bytes behind it. That this holds across a power-on
reset too is the model's reading (assumption log 6), and the bytes already taken are seen in the model's own record of
them (assumption log 14). -/
def Obligations.ResponsesOnlyGrow : Prop :=
  ∀ s t : State, step s = .next t → (s.taken ++ s.resp) <+: (t.taken ++ t.resp)

/-- R78, R79: every command that runs sends exactly one response, and one of those that the table lists for it. -/
def Obligations.OneListedResponsePerCommand : Prop :=
  ∀ (i : Instr) (s t : State), s.Inv → exec i s = .next t → ∃ r : Response, t.resp = s.resp ++ r.encode ∧
    match i with
    | .reset => r = .ok
    | .append _ => r = .ok ∨ r = .bufferOverflow ∨ r = .streamEnded ∨ r = .formatError
    | .attempt => r = .noFrame ∨ (∃ start x y, r = .crcMismatch start x y) ∨
        (∃ start vs, r = .packet start vs ∧ vs.length = s.cfg.fieldTable.length ∧ vs.length ≤ 16) ∨
        r = .streamEnded ∨ r = .formatError
    | .status => ∃ ws, r = .statusReport ws ∧ ws.length = 6
    | .endStream => r = .ok ∨ r = .streamEnded ∨ r = .formatError

/-- R78 to R80: the bytes of every response, with the code and the payload count of the table, and the big-endian bytes
of every multi-byte value in them. -/
def Obligations.ResponseBytes : Prop :=
  Response.ok.encode = [0x00#8, 0x00#8, 0x00#8, 0x00#8] ∧
  Response.noFrame.encode = [0x10#8, 0x00#8, 0x00#8, 0x00#8] ∧
  (∀ start x y, (Response.crcMismatch start x y).encode =
    [0x11#8, 0x00#8, 0x00#8, 0x08#8] ++ be32 start ++ be16 x ++ be16 y) ∧
  (∀ start vs, vs.length ≤ 16 → (Response.packet start vs).encode =
    [0x12#8, 0x00#8, 0x00#8, BitVec.ofNat 8 (4 + 4 * vs.length)] ++ be32 start ++ vs.flatMap be32) ∧
  (∀ ws, ws.length = 6 → (Response.statusReport ws).encode = [0x13#8, 0x00#8, 0x00#8, 0x18#8] ++ ws.flatMap be32) ∧
  (∀ h : Header, (Response.illegalCommand h).encode =
    [0x20#8, 0x00#8, 0x00#8, 0x04#8, h.h0, h.h1, h.h2, h.h3]) ∧
  Response.bufferOverflow.encode = [0x21#8, 0x00#8, 0x00#8, 0x00#8] ∧
  Response.streamEnded.encode = [0x22#8, 0x00#8, 0x00#8, 0x00#8] ∧
  Response.formatError.encode = [0x23#8, 0x00#8, 0x00#8, 0x00#8] ∧
  (∀ w : Word, be32 w = [w.extractLsb' 24 8, w.extractLsb' 16 8, w.extractLsb' 8 8, w.extractLsb' 0 8]) ∧
  (∀ x : Half, be16 x = [x.extractLsb' 8 8, x.extractLsb' 0 8])

/-! ## The machine as a whole -/

/-- R36, R280: the block right after power-on, with any configuration, has every element of the record at its reset
value and its receiver idle; and the machine after reset is such a block. -/
def Obligations.ResetValues : Prop :=
  (∀ c : Config, (State.powerOn c).buf = [] ∧ (State.powerOn c).posHead = 0 ∧ (State.powerOn c).ended = false ∧
    (State.powerOn c).cfgOk = configWf c ∧ (State.powerOn c).cntNoSync = 0#32 ∧
    (State.powerOn c).cntCrcErr = 0#32 ∧ (State.powerOn c).cntPkt = 0#32 ∧ (State.powerOn c).rx = []) ∧
  ∃ c : Config, State.reset = State.powerOn c

/-- R21, R24, R25, R253: the invariant holds of the block right after power-on, whatever its configuration. -/
def Obligations.PowerOnKeepsTheRecordLegal : Prop := (∀ c : Config, (State.powerOn c).Inv) ∧ State.reset.Inv

/-- R21, R24, R25, R253: every step keeps the invariant, whatever the host does. -/
def Obligations.StepKeepsTheRecordLegal : Prop := ∀ s t : State, s.Inv → step s = .next t → t.Inv

/-- R52, R105, R106, R204: from a state that meets the invariant no step ends in a fault or a refusal: no command can
issue an out-of-range read, and none reaches a failing case of a primitive. -/
def Obligations.StepNeverStops : Prop := ∀ s : State, s.Inv → ∃ t, step s = .next t

/-- R3, R25: no step writes the configuration, and the check's result is the same after every reset. -/
def Obligations.ConfigurationIsFixed : Prop :=
  ∀ s t : State, step s = .next t → t.cfg = s.cfg ∧ (s.cfgOk = configWf s.cfg → t.cfgOk = s.cfgOk)

/-- R231: the configuration check passes exactly when every condition of the rule holds (5 and 8 hold by type), and the
default parameters pass it with every sync word and mask of the right length and every capacity that R11 and R12
admit below 2^32. -/
def Obligations.ConfigurationCheck : Prop :=
  (∀ c : Config, configWf c = true ↔
    ((1 ≤ c.syncW ∧ c.syncW ≤ c.frameBits ∧ c.syncWord.length = c.syncW) ∧
      c.frameBits ≤ c.whitenMask.length ∧
      (1 ≤ c.crcCoverBytes ∧ 8 * c.crcCoverBytes ≤ c.frameBits) ∧
      c.crcFieldOffset + 16 ≤ c.frameBits ∧
      (1 ≤ c.fieldTable.length ∧ c.fieldTable.length ≤ 16 ∧
        (∀ e ∈ c.fieldTable, 1 ≤ e.width ∧ e.width ≤ 32 ∧ e.off + e.width ≤ c.frameBits) ∧
        (c.fieldTable.map FieldEntry.name).Nodup) ∧
      (1 ≤ c.chunkMaxBytes ∧ c.chunkMaxBytes ≤ 65535 ∧ c.frameBits + 8 * c.chunkMaxBytes ≤ c.bufCapBits ∧
        c.bufCapBits < 2 ^ 32))) ∧
  (∀ (sync mask : List Bit) (chunkMax cap : Nat), sync.length = 40 → 216 ≤ mask.length → 1 ≤ chunkMax →
    chunkMax ≤ 65535 → 216 + 8 * chunkMax ≤ cap → cap < 2 ^ 32 →
    configWf (defaultConfig sync mask chunkMax cap) = true)

/-- R24: `ENDED` is set only by an END command, and cleared only by RESET or by a power-on reset. -/
def Obligations.EndedSetAndClearedOnlyBy : Prop :=
  ∀ s t : State, step s = .next t →
    (s.ended = false → t.ended = true → ∃ rest, decode s.cfg.chunkMaxBytes s.rx = some (.command .endStream, rest)) ∧
    (s.ended = true → t.ended = false → (∃ acts, s.hostActs = .powerOn :: acts) ∨
      ∃ rest, decode s.cfg.chunkMaxBytes s.rx = some (.command .reset, rest))

/-- R23: only APPEND increases `POS_TAIL`, only ATTEMPT and END increase `POS_HEAD`, nothing but RESET decreases
either, and RESET sets both to 0. An APPEND answered OK adds its payload's bits to `POS_TAIL`, so `POS_TAIL` counts the
bits appended since the reset. -/
def Obligations.CursorAndTail : Prop :=
  ∀ (i : Instr) (s t : State), exec i s = .next t →
    (i = .reset → t.posHead = 0 ∧ posTail t = 0) ∧
    (i ≠ .reset → s.posHead ≤ t.posHead ∧ posTail s ≤ posTail t) ∧
    (posTail s < posTail t → ∃ d, i = .append d) ∧
    (s.posHead < t.posHead → i = .attempt ∨ i = .endStream) ∧
    (∀ d, i = .append d → t.resp = s.resp ++ [0x00#8, 0x00#8, 0x00#8, 0x00#8] →
      posTail t = posTail s + 8 * d.length) ∧
    (∀ d, i = .append d → t.resp ≠ s.resp ++ [0x00#8, 0x00#8, 0x00#8, 0x00#8] → posTail t = posTail s)

/-- R255: a raised error, seen by its response code, changes nothing but the response channel. -/
def Obligations.RaisedErrorsChangeNothing : Prop :=
  ∀ (d : Decoded) (s t : State) (code : Byte) (more : List Byte), runDecoded d s = .next t →
    t.resp = s.resp ++ code :: more →
    (code = 0x20#8 ∨ code = 0x21#8 ∨ code = 0x22#8 ∨ code = 0x23#8) → t = { s with resp := t.resp }

/-- R259: which error a command reports when more than one applies: ILLEGAL_COMMAND first; RESET and STATUS raise none;
then FORMAT_ERROR, STREAM_ENDED and BUFFER_OVERFLOW; and a command that passes its checks reports an outcome. -/
def Obligations.ErrorPriority : Prop :=
  ∀ (d : Decoded) (s t : State), runDecoded d s = .next t → ∃ code more, t.resp = s.resp ++ code :: more ∧
    match d with
    | .illegal _ _ => code = 0x20#8
    | .command .reset => code = 0x00#8
    | .command .status => code = 0x13#8
    | .command .endStream => code = if s.cfgOk = false then 0x23#8 else if s.ended = true then 0x22#8 else 0x00#8
    | .command (.append p) => code =
        if s.cfgOk = false then 0x23#8 else if s.ended = true then 0x22#8
        else if s.cfg.bufCapBits < s.buf.length + 8 * p.length then 0x21#8 else 0x00#8
    | .command .attempt =>
        if s.cfgOk = false then code = 0x23#8 else if s.ended = true then code = 0x22#8
        else code = 0x10#8 ∨ code = 0x11#8 ∨ code = 0x12#8

/-- R26 to R28, R265: an ATTEMPT that passes the checks adds 1, modulo 2^32, to exactly one counter, the one of its
response code, and leaves the other two; an ATTEMPT that is refused leaves all three, as every other command does but
RESET, which clears them. -/
def Obligations.CountersCountAttempts : Prop :=
  (∀ s t : State, s.cfgOk = true → s.ended = false → exec .attempt s = .next t →
    ∃ code more, t.resp = s.resp ++ code :: more ∧
      ((code = 0x10#8 ∧ t.cntNoSync = s.cntNoSync + 1#32 ∧ t.cntCrcErr = s.cntCrcErr ∧ t.cntPkt = s.cntPkt) ∨
       (code = 0x11#8 ∧ t.cntNoSync = s.cntNoSync ∧ t.cntCrcErr = s.cntCrcErr + 1#32 ∧ t.cntPkt = s.cntPkt) ∨
       (code = 0x12#8 ∧ t.cntNoSync = s.cntNoSync ∧ t.cntCrcErr = s.cntCrcErr ∧ t.cntPkt = s.cntPkt + 1#32))) ∧
  (∀ (i : Instr) (s t : State), (i = .attempt → s.cfgOk = false ∨ s.ended = true) → i ≠ .reset →
    exec i s = .next t → t.cntNoSync = s.cntNoSync ∧ t.cntCrcErr = s.cntCrcErr ∧ t.cntPkt = s.cntPkt) ∧
  (∀ s t : State, exec .reset s = .next t → t.cntNoSync = 0#32 ∧ t.cntCrcErr = 0#32 ∧ t.cntPkt = 0#32)

/-! ## RESET, STATUS, END and APPEND -/

/-- R230: RESET, in every state, puts every element of the record at its reset value and answers OK; the configuration
and the host's side are left alone. That the bytes behind RESET stay in the receiver is the model's reading (assumption
log 16). -/
def Obligations.ResetResult : Prop :=
  ∀ s : State, exec .reset s =
    .next { s with buf := [], posHead := 0, ended := false, cfgOk := configWf s.cfg, cntNoSync := 0#32,
                   cntCrcErr := 0#32, cntPkt := 0#32, resp := s.resp ++ [0x00#8, 0x00#8, 0x00#8, 0x00#8] }

/-- R232, R34: STATUS, in every state, answers the six status words and changes nothing else. -/
def Obligations.StatusResult : Prop :=
  ∀ s : State, exec .status s =
    .next { s with
      resp := s.resp ++ ([0x13#8, 0x00#8, 0x00#8, 0x18#8] ++
        be32 (BitVec.ofNat 32 (s.cfgOk.toNat + 2 * s.ended.toNat)) ++ be32 (BitVec.ofNat 32 s.buf.length) ++
        be32 (BitVec.ofNat 32 (s.posHead % 2 ^ 32)) ++ be32 s.cntNoSync ++ be32 s.cntCrcErr ++ be32 s.cntPkt) }

/-- R34: bit 0 of FLAGS is `CFG_OK`, bit 1 is `ENDED`, and bits 31:2 are 0. -/
def Obligations.FlagsWordBits : Prop :=
  ∀ s : State, (flagsWord s).getLsbD 0 = s.cfgOk ∧ (flagsWord s).getLsbD 1 = s.ended ∧
    ∀ k, 2 ≤ k → (flagsWord s).getLsbD k = false

/-- R58: STATUS and RESET are idempotent: the state after two of them, each response read, is the state after one,
but for the bytes the host has read. -/
def Obligations.StatusAndResetAreIdempotent : Prop :=
  ∀ (s : State) (i : Instr), i = .status ∨ i = .reset →
    ∃ t u resp, issue i s = .next (resp, t) ∧ issue i t = .next (resp, u) ∧ u = { t with taken := u.taken }

/-- R233: END is answered FORMAT_ERROR while `CFG_OK = 0`, else STREAM_ENDED while `ENDED = 1`, with no other change;
otherwise it drops the buffer, moves the cursor past it, sets `ENDED`, answers OK and changes nothing else. -/
def Obligations.EndResult : Prop :=
  ∀ s : State, exec .endStream s = .next
    (if s.cfgOk = false then { s with resp := s.resp ++ [0x23#8, 0x00#8, 0x00#8, 0x00#8] }
     else if s.ended = true then { s with resp := s.resp ++ [0x22#8, 0x00#8, 0x00#8, 0x00#8] }
     else { s with buf := [], posHead := s.posHead + s.buf.length, ended := true,
                   resp := s.resp ++ [0x00#8, 0x00#8, 0x00#8, 0x00#8] })

/-- R100, R101: APPEND is answered FORMAT_ERROR while `CFG_OK = 0`, else STREAM_ENDED while `ENDED = 1`, else
BUFFER_OVERFLOW when its payload does not fit, with no other change; otherwise it adds the bits of each byte, most
significant first, behind the buffer, answers OK and changes nothing else. -/
def Obligations.AppendResult : Prop :=
  ∀ (s : State) (d : List Byte), exec (.append d) s = .next
    (if s.cfgOk = false then { s with resp := s.resp ++ [0x23#8, 0x00#8, 0x00#8, 0x00#8] }
     else if s.ended = true then { s with resp := s.resp ++ [0x22#8, 0x00#8, 0x00#8, 0x00#8] }
     else if s.cfg.bufCapBits < s.buf.length + 8 * d.length then
       { s with resp := s.resp ++ [0x21#8, 0x00#8, 0x00#8, 0x00#8] }
     else { s with buf := s.buf ++ d.flatMap (fun b => (List.range 8).map fun k => b.getLsbD (7 - k)),
                   resp := s.resp ++ [0x00#8, 0x00#8, 0x00#8, 0x00#8] })

/-- R253, R259: while `CFG_OK = 0`, every APPEND, ATTEMPT and END is answered FORMAT_ERROR, whatever `ENDED` and the
buffer are, and nothing else changes. -/
def Obligations.MalformedConfigurationRefuses : Prop :=
  ∀ (s : State) (i : Instr), s.cfgOk = false → i ≠ .reset → i ≠ .status →
    exec i s = .next { s with resp := s.resp ++ [0x23#8, 0x00#8, 0x00#8, 0x00#8] }

/-- R258, R259: while `ENDED = 1` under a well-formed configuration, every APPEND, ATTEMPT and END is answered
STREAM_ENDED, and nothing else changes. -/
def Obligations.EndedStreamRefuses : Prop :=
  ∀ (s : State) (i : Instr), s.cfgOk = true → s.ended = true → i ≠ .reset → i ≠ .status →
    exec i s = .next { s with resp := s.resp ++ [0x22#8, 0x00#8, 0x00#8, 0x00#8] }

/-- R102: a byte sequence sent in chunks, by consecutive APPENDs all answered OK, leaves the buffer as one APPEND of the
whole does. -/
def Obligations.ChunkBoundariesLeaveNoTrace : Prop :=
  ∀ (s t : State) (chunks : List (List Byte)), chunks ≠ [] → appendAll chunks s = some t →
    ∃ u, exec (.append chunks.flatten) s = .next u ∧ u.buf = t.buf ∧
      u.resp = s.resp ++ [0x00#8, 0x00#8, 0x00#8, 0x00#8]

/-! ## ATTEMPT -/

/-- R131, R133, R135: an ATTEMPT on an open stream whose window holds no sync word removes the window's bits, counts, and
answers NO_FRAME; nothing else changes. -/
def Obligations.AttemptMissResult : Prop :=
  ∀ (s : State) (lim : Nat), s.Inv → s.cfgOk = true → s.ended = false →
    lim = (match s.cfg.trimPolicy with
      | .retainF => s.buf.length - s.cfg.frameBits
      | .retainFMinus1 => s.buf.length + 1 - s.cfg.frameBits) →
    (∀ p < lim, (s.buf.drop p).take s.cfg.syncW ≠ s.cfg.syncWord) →
    exec .attempt s =
      .next { s with buf := s.buf.drop lim, posHead := s.posHead + lim, cntNoSync := s.cntNoSync + 1#32,
                     resp := s.resp ++ [0x10#8, 0x00#8, 0x00#8, 0x00#8] }

/-- R132, R135, R160, R180 to R183: an ATTEMPT on an open stream whose lowest sync word in the window is at `p`, and whose
frame's CRC is not the transmitted one, consumes the frame, counts, and answers CRC_MISMATCH with the frame start and the
two CRCs; nothing else changes. -/
def Obligations.AttemptCrcMismatchResult : Prop :=
  ∀ (s : State) (p lim : Nat) (clr : List Bit) (computed rx : Half), s.Inv → s.cfgOk = true → s.ended = false →
    lim = (match s.cfg.trimPolicy with
      | .retainF => s.buf.length - s.cfg.frameBits
      | .retainFMinus1 => s.buf.length + 1 - s.cfg.frameBits) →
    p < lim → (s.buf.drop p).take s.cfg.syncW = s.cfg.syncWord →
    (∀ q < p, (s.buf.drop q).take s.cfg.syncW ≠ s.cfg.syncWord) →
    clr = List.zipWith xor ((s.buf.drop p).take s.cfg.frameBits) (s.cfg.whitenMask.take s.cfg.frameBits) →
    computed = crc16 s.cfg ((List.range s.cfg.crcCoverBytes).map fun k =>
      BitVec.ofNat 8 (be ((clr.drop (8 * k)).take 8))) →
    rx = BitVec.ofNat 16 (be ((clr.drop s.cfg.crcFieldOffset).take 16)) → computed ≠ rx →
    exec .attempt s =
      .next { s with buf := s.buf.drop (p + s.cfg.frameBits), posHead := s.posHead + (p + s.cfg.frameBits),
                     cntCrcErr := s.cntCrcErr + 1#32,
                     resp := s.resp ++ ([0x11#8, 0x00#8, 0x00#8, 0x08#8] ++
                       be32 (BitVec.ofNat 32 ((s.posHead + p) % 2 ^ 32)) ++ be16 computed ++ be16 rx) }

/-- R132, R135, R160, R180 to R183, R200 to R205: the same when the CRCs agree: the ATTEMPT counts a packet and answers
PACKET with the frame start and every field of the table, in table order; nothing else changes. -/
def Obligations.AttemptPacketResult : Prop :=
  ∀ (s : State) (p lim : Nat) (clr : List Bit), s.Inv → s.cfgOk = true → s.ended = false →
    lim = (match s.cfg.trimPolicy with
      | .retainF => s.buf.length - s.cfg.frameBits
      | .retainFMinus1 => s.buf.length + 1 - s.cfg.frameBits) →
    p < lim → (s.buf.drop p).take s.cfg.syncW = s.cfg.syncWord →
    (∀ q < p, (s.buf.drop q).take s.cfg.syncW ≠ s.cfg.syncWord) →
    clr = List.zipWith xor ((s.buf.drop p).take s.cfg.frameBits) (s.cfg.whitenMask.take s.cfg.frameBits) →
    crc16 s.cfg ((List.range s.cfg.crcCoverBytes).map fun k => BitVec.ofNat 8 (be ((clr.drop (8 * k)).take 8))) =
      BitVec.ofNat 16 (be ((clr.drop s.cfg.crcFieldOffset).take 16)) →
    exec .attempt s =
      .next { s with buf := s.buf.drop (p + s.cfg.frameBits), posHead := s.posHead + (p + s.cfg.frameBits),
                     cntPkt := s.cntPkt + 1#32,
                     resp := s.resp ++ ([0x12#8, 0x00#8, 0x00#8, BitVec.ofNat 8 (4 + 4 * s.cfg.fieldTable.length)] ++
                       be32 (BitVec.ofNat 32 ((s.posHead + p) % 2 ^ 32)) ++
                       s.cfg.fieldTable.flatMap fun e => be32 (BitVec.ofNat 32 (match e.order with
                         | .msbFirst => be ((clr.drop e.off).take e.width)
                         | .lsbFirst => le ((clr.drop e.off).take e.width)))) }

/-- R33: the outcome of an attempt that passes its checks depends on the state through `BUF` alone, and on `POS_HEAD`
through the reported start alone: two states with one configuration and one buffer send the same response but for the
four bytes of `START`, and keep the same buffer. -/
def Obligations.AttemptDependsOnTheBufferAlone : Prop :=
  ∀ s₁ s₂ t₁ t₂ : State, s₁.cfgOk = true → s₁.ended = false → s₂.cfgOk = true → s₂.ended = false →
    s₁.cfg = s₂.cfg → s₁.buf = s₂.buf → s₁.resp = [] → s₂.resp = [] →
    exec .attempt s₁ = .next t₁ → exec .attempt s₂ = .next t₂ →
    t₁.buf = t₂.buf ∧ t₁.resp.take 4 = t₂.resp.take 4 ∧ t₁.resp.drop 8 = t₂.resp.drop 8 ∧
    (s₁.posHead % 2 ^ 32 = s₂.posHead % 2 ^ 32 → t₁.resp = t₂.resp)

/-- R136, R137: an ATTEMPT that answers CRC_MISMATCH or PACKET removes at least `F` bits, and one that answers NO_FRAME
removes some bits exactly when the buffer is longer than the tail it retains. -/
def Obligations.AttemptsMakeProgress : Prop :=
  ∀ s t : State, s.Inv → s.cfgOk = true → s.ended = false → exec .attempt s = .next t →
    ∃ code more, t.resp = s.resp ++ code :: more ∧
      ((code = 0x11#8 ∨ code = 0x12#8) → t.buf.length + s.cfg.frameBits ≤ s.buf.length) ∧
      (code = 0x10#8 → (t.buf.length < s.buf.length ↔ match s.cfg.trimPolicy with
        | .retainF => s.cfg.frameBits < s.buf.length
        | .retainFMinus1 => s.cfg.frameBits ≤ s.buf.length))

/-- R138: an ATTEMPT loses no match. A match among the bits it removes is the start of the frame it extracts or lies
inside that frame; and every offset it keeps begins a match after exactly when it did before. -/
def Obligations.NoSyncWordIsLost : Prop :=
  ∀ s t : State, s.Inv → s.cfgOk = true → s.ended = false → exec .attempt s = .next t →
    (∀ a < s.buf.length - t.buf.length, occursAt s.cfg.syncWord s.buf a = true →
      ∃ p, HitsAt s p ∧ p ≤ a ∧ a < p + s.cfg.frameBits) ∧
    (∀ a, s.buf.length - t.buf.length ≤ a →
      occursAt t.cfg.syncWord t.buf (a - (s.buf.length - t.buf.length)) = occursAt s.cfg.syncWord s.buf a)

/-- R139: a frame at offset `p` is found only once the buffer reaches past it: at least one bit past its end under
RETAIN_F, its last bit under RETAIN_F_MINUS_1. -/
def Obligations.HitNeedsTheWholeFrame : Prop :=
  ∀ (s : State) (p : Nat), HitsAt s p → match s.cfg.trimPolicy with
    | .retainF => p + s.cfg.frameBits + 1 ≤ s.buf.length
    | .retainFMinus1 => p + s.cfg.frameBits ≤ s.buf.length

/-- R104: a shift register as wide as the pattern, compared with it at each bit, finds what `find` finds. -/
def Obligations.ShiftRegisterFindsTheSame : Prop :=
  ∀ (pat buf : List Bit) (fromBit toBit : Nat), 1 ≤ pat.length →
    shiftFind pat buf fromBit toBit = find pat buf fromBit toBit

/-! ## The decode pipeline -/

/-- R163: dewhitening a dewhitened frame gives the frame back. -/
def Obligations.DewhiteningIsAnInvolution : Prop :=
  ∀ (c : Config) (raw : List Bit), configWf c = true → raw.length = c.frameBits →
    ∃ clr, dewhiten c raw = .ok clr ∧ clr.length = c.frameBits ∧ dewhiten c clr = .ok raw

/-- R164: in every frame that an ATTEMPT extracts, the first `SYNC_W` dewhitened bits are `SYNC_WORD XOR` the mask's
first `SYNC_W` bits. -/
def Obligations.CleartextSyncWord : Prop :=
  ∀ (s : State) (p : Nat), configWf s.cfg = true → HitsAt s p →
    ∃ clr, dewhiten s.cfg ((s.buf.drop p).take s.cfg.frameBits) = .ok clr ∧
      clr.take s.cfg.syncW = List.zipWith xor s.cfg.syncWord (s.cfg.whitenMask.take s.cfg.syncW)

/-- R184: the CRC is affine in its input bits: for two inputs of one length, the XOR of their CRCs and of the CRC of
their XOR is the CRC of the all-zero input. -/
def Obligations.CrcIsAffine : Prop :=
  ∀ (c : Config) (a b : List Byte), a.length = b.length →
    crc16 c a ^^^ crc16 c b ^^^ crc16 c (List.zipWith (· ^^^ ·) a b) = crc16 c (List.replicate a.length 0x00#8)

/-- R184: masking the register to 16 bits after each byte, as the source says, gives the CRC that masking after each
round gives. -/
def Obligations.LateMaskingGivesTheSameCrc : Prop :=
  ∀ (c : Config) (m : List Byte), lateMaskCrc c m = (crc16 c m).toNat

/-- R185: with the default constants, a change of any single one of the 192 covered bits, in any input, changes the
CRC. -/
def Obligations.SingleBitChangesTheCrc : Prop :=
  ∀ (c : Config) (m : List Byte) (i : Nat), c.crcInit = 0xB5D2#16 → c.crcPoly = 0x1021#16 →
    c.crcXorout = 0x61B1#16 → m.length = 24 → i < 192 →
    crc16 c (m.modify (i / 8) (fun b => b ^^^ BitVec.twoPow 8 (7 - i % 8))) ≠ crc16 c m

/-- R200, R204: the field decoder on a frame of `F` bits gives one value per entry, in table order, each below two to its
width, so that the 32-bit report cuts none; on any other frame it gives no value. That it then ends in a fault of the
model, where R204 names an error that no command reaches, is the model's reading (assumption log 11). -/
def Obligations.FieldValues : Prop :=
  ∀ (c : Config) (clr : List Bit), configWf c = true →
    (clr.length = c.frameBits → ∃ vs, decodeFields c clr = .ok vs ∧
      vs.map BitVec.toNat = c.fieldTable.map (fun e => match e.order with
        | .msbFirst => be ((clr.drop e.off).take e.width)
        | .lsbFirst => le ((clr.drop e.off).take e.width)) ∧
      ∀ k (h : k < vs.length) (h' : k < c.fieldTable.length), vs[k].toNat < 2 ^ c.fieldTable[k].width) ∧
    (clr.length ≠ c.frameBits → decodeFields c clr = .error .frameLength)

/-- R203: an LSB_FIRST value is the bit reversal of the MSB_FIRST value. -/
def Obligations.LsbFirstIsTheReversal : Prop :=
  ∀ bits : List Bit, fieldValue .lsbFirst bits = fieldValue .msbFirst bits.reverse

/-- R16, R53, R55: the bytes of the bits that a payload adds are the payload, and bit `j` of byte `k` is bit `7 - j` of
the byte. -/
def Obligations.PayloadBitsAndBytes : Prop :=
  ∀ d : List Byte, bytesOf (payloadBits d) = d ∧
    ∀ k j (h : k < d.length), j < 8 → (payloadBits d)[8 * k + j]? = some (d[k].getLsbD (7 - j))

/-- R141, R206: with the default parameters the trailer, bits 208 to 215, changes nothing: two frames that agree on bits
0 to 207 have one outcome. -/
def Obligations.TrailerIsIgnored : Prop :=
  ∀ (sync mask : List Bit) (chunkMax cap : Nat) (raw₁ raw₂ : List Bit),
    configWf (defaultConfig sync mask chunkMax cap) = true → raw₁.length = 216 → raw₂.length = 216 →
    raw₁.take 208 = raw₂.take 208 →
    processFrame (defaultConfig sync mask chunkMax cap) raw₁ = processFrame (defaultConfig sync mask chunkMax cap) raw₂

/-! ## Runs of commands -/

/-- R83, R137: a DRAIN ends within `floor(L / F) + 1` ATTEMPTs, and on an open stream it leaves at most `F` bits under
RETAIN_F, at most `F - 1` under RETAIN_F_MINUS_1. -/
def Obligations.DrainEnds : Prop :=
  ∀ s : State, s.Inv → ∃ t, drain (s.buf.length / s.cfg.frameBits + 1) s = some (.next t) ∧
    (s.cfgOk = true → s.ended = false → match s.cfg.trimPolicy with
      | .retainF => t.buf.length ≤ s.cfg.frameBits
      | .retainFMinus1 => t.buf.length ≤ s.cfg.frameBits - 1)

/-- R257: after a DRAIN every legal APPEND fits. -/
def Obligations.AppendFitsAfterDrain : Prop :=
  ∀ (s t : State) (fuel : Nat) (d : List Byte), s.Inv → s.cfgOk = true → s.ended = false →
    drain fuel s = some (.next t) → d.length ≤ s.cfg.chunkMaxBytes →
    ∃ u, exec (.append d) t = .next u ∧ u.buf = t.buf ++ payloadBits d ∧
      u.resp = t.resp ++ [0x00#8, 0x00#8, 0x00#8, 0x00#8]

/-- R257, R285: the reference host loop, with chunks of at most `CHUNK_MAX_BYTES`, runs to its END with every bit of every
chunk accepted: the cursor ends at the number of bits sent. -/
def Obligations.ReferenceLoopAcceptsEverything : Prop :=
  ∀ (c : Config) (chunks : List (List Byte)), configWf c = true →
    (∀ d ∈ chunks, d.length ≤ c.chunkMaxBytes) →
    ∃ t, referenceLoop chunks (State.powerOn c) = some (.next t) ∧ t.ended = true ∧ t.buf = [] ∧
      t.posHead = 8 * chunks.flatten.length

/-- R285: a host that sends one ATTEMPT per chunk, with chunks of at most `F` bits, keeps at most `F` bits in the buffer
after each, and no chunk is refused. -/
def Obligations.OneAttemptPerChunkIsEnough : Prop :=
  ∀ (s : State) (d : List Byte), s.Inv → s.cfgOk = true → s.ended = false → s.buf.length ≤ s.cfg.frameBits →
    8 * d.length ≤ s.cfg.frameBits → d.length ≤ s.cfg.chunkMaxBytes →
    ∃ t u, exec (.append d) s = .next t ∧ t.buf = s.buf ++ payloadBits d ∧ exec .attempt t = .next u ∧
      u.buf.length ≤ s.cfg.frameBits

/-- R142: the CRC_MISMATCH and PACKET responses of a run of APPEND, ATTEMPT and STATUS after power-on are, in order, the
responses to the first of the frames that the appended stream alone fixes, whenever the ATTEMPTs were sent. -/
def Obligations.FramesDoNotDependOnTheSchedule : Prop :=
  ∀ (c : Config) (cmds : List Instr) (log : List (Instr × List Byte)) (t : State), configWf c = true →
    (∀ i ∈ cmds, i ≠ .reset ∧ i ≠ .endStream) → runCommands cmds (State.powerOn c) = some (log, t) →
    ((log.map Prod.snd).filter isHit) <+:
      (frameStarts c.syncWord c.frameBits (appendedBits log) ((appendedBits log).length + 1) 0).map
        (frameResponse c (appendedBits log))

/-- R138, R139, R142: once an ATTEMPT of such a run answers NO_FRAME with nothing appended after it, every frame whose
start the search window has reached has been reported, and no other. -/
def Obligations.DrainedRunReportsEveryFrame : Prop :=
  ∀ (c : Config) (cmds : List Instr) (log : List (Instr × List Byte)) (t : State), configWf c = true →
    (∀ i ∈ cmds, i ≠ .reset ∧ i ≠ .endStream) →
    runCommands (cmds ++ [.attempt]) (State.powerOn c) = some (log, t) →
    (∃ before, log = before ++ [(.attempt, [0x10#8, 0x00#8, 0x00#8, 0x00#8])]) →
    (log.map Prod.snd).filter isHit =
      ((frameStarts c.syncWord c.frameBits (appendedBits log) ((appendedBits log).length + 1) 0).filter fun q =>
        decide (q < searchLimit c (appendedBits log).length)).map (frameResponse c (appendedBits log))

/-! ## Notation, and one command as a run of steps -/

/-- R16: `be` and `le` are the sums of the rule; the bits of a byte are `b[7]` to `b[0]`, and `be` gives the byte back;
byte `k` of a bit sequence of whole bytes is `be` of its bits `8k` to `8k + 7`. -/
def Obligations.BitSequenceValues : Prop :=
  (∀ s : List Bit, be s = ∑ j ∈ Finset.range s.length, (s.getD j false).toNat * 2 ^ (s.length - 1 - j)) ∧
  (∀ s : List Bit, le s = ∑ j ∈ Finset.range s.length, (s.getD j false).toNat * 2 ^ j) ∧
  (∀ b : Byte, bits8 b = (List.range 8).map (fun k => b.getLsbD (7 - k)) ∧ be (bits8 b) = b.toNat) ∧
  (∀ s : List Bit, 8 ∣ s.length → (bytesOf s).length = s.length / 8 ∧
    ∀ k (h : k < (bytesOf s).length), (bytesOf s)[k].toNat = be ((s.drop (8 * k)).take 8))

/-- R70, R74, R75, R78, R234, R282: what `issue` gives is what the step gives, for every command whose payload count fits
`LEN`, an APPEND above `CHUNK_MAX_BYTES` among them. A host that takes every byte of the last response, puts the
command's bytes on the empty channel, lets the block have its turn and takes every byte of the
response has read the response that `issue` answers, and the state is the one that `issue` answers. The list of acts
and the record of the bytes taken are the model's own (assumption logs 5 and 14). -/
def Obligations.IssueIsARunOfTheStep : Prop :=
  ∀ (s t : State) (i : Instr) (resp : List Byte), s.rx = [] → s.hostActs = [] →
    i.lenFits = true → issue i s = .next (resp, t) →
    t.taken = s.taken ++ s.resp ++ resp ∧
    runSteps (s.resp.length + ((encode i).length + (1 + resp.length)))
        { s with hostActs := List.replicate s.resp.length HostAct.take ++ ((encode i).map HostAct.put ++
          (.wait :: List.replicate resp.length HostAct.take)) } = .next t
end

