-- ==== Sys2Proof/Laws/Bits.lean ====
section
/-!
SUPPORT. The small lemmas of the notation: lengths, ranges and values of bit sequences and bytes.
-/

namespace Sys2Proof.Machine

@[simp] theorem bits8_length (b : Byte) : (bits8 b).length = 8 := rfl

@[simp] theorem bitsOf_nil : bitsOf [] = [] := rfl

@[simp] theorem bitsOf_cons (b : Byte) (d : List Byte) : bitsOf (b :: d) = bits8 b ++ bitsOf d := rfl

@[simp] theorem bitsOf_append (d e : List Byte) : bitsOf (d ++ e) = bitsOf d ++ bitsOf e := by
  simp [bitsOf]

@[simp] theorem bitsOf_length (d : List Byte) : (bitsOf d).length = 8 * d.length := by
  induction d with
  | nil => rfl
  | cons b d ih => simp [ih]; omega

@[simp] theorem be16_length (x : Half) : (be16 x).length = 2 := rfl

@[simp] theorem be32_length (x : Word) : (be32 x).length = 4 := rfl

theorem flatMap_be32_length (ws : List Word) : (ws.flatMap be32).length = 4 * ws.length := by
  induction ws with
  | nil => rfl
  | cons w ws ih => simp [List.flatMap_cons, ih]; omega

theorem be_lt (s : List Bit) : be s < 2 ^ s.length := by
  induction s with
  | nil => simp [be]
  | cons b s ih =>
    have hb : b.toNat ≤ 1 := by cases b <;> simp
    have hm : b.toNat * 2 ^ s.length ≤ 1 * 2 ^ s.length := Nat.mul_le_mul_right _ hb
    simp only [be, List.length_cons, Nat.pow_succ]
    omega

theorem le_lt (s : List Bit) : le s < 2 ^ s.length := by
  induction s with
  | nil => simp [le]
  | cons b s ih =>
    have hb : b.toNat ≤ 1 := by cases b <;> simp
    simp only [le, List.length_cons, Nat.pow_succ]
    omega

theorem slice_eq_some {s : List Bit} {a n : Nat} {t : List Bit} :
    slice s a n = some t ↔ a + n ≤ s.length ∧ t = (s.drop a).take n := by
  unfold slice
  split
  · simp_all [eq_comm]
  · simp_all

theorem slice_of_le {s : List Bit} {a n : Nat} (h : a + n ≤ s.length) :
    slice s a n = some ((s.drop a).take n) := by simp [slice, h]

/-- A slice has the length asked for. -/
theorem slice_length {s : List Bit} {a n : Nat} {t : List Bit} (h : slice s a n = some t) : t.length = n := by
  obtain ⟨hle, rfl⟩ := slice_eq_some.mp h
  simp; omega

@[simp] theorem xorBits_length (s t : List Bit) : (xorBits s t).length = min s.length t.length := by
  simp [xorBits]

@[simp] theorem bytesOf_length (s : List Bit) : (bytesOf s).length = s.length / 8 := by
  simp [bytesOf]

@[simp] theorem header_bytes_length (h : Header) : h.bytes.length = 4 := rfl

/-- Every response has a four-byte header before its payload (R78). -/
theorem encode_length (r : Response) : r.encode.length = 4 + r.payload.length := by
  simp [Response.encode]; omega

theorem encode_ne_nil (r : Response) : r.encode ≠ [] := by simp [Response.encode]

@[simp] theorem encode_head (r : Response) : r.encode.head? = some r.code := rfl

end Sys2Proof.Machine
end

