-- ==== Sys2Proof/Laws/Decode.lean ====
section
/-!
SUPPORT. What the receiver and the encoder's header can do, said once.
-/

namespace Sys2Proof

/-- Everything the receiver can do when it takes a command (R72). -/
theorem receive_eq_some {bytes payload rest : List Byte} {h : Header} :
    receive bytes = some (h, payload, rest) ↔ bytes = h.bytes ++ (payload ++ rest) ∧ payload.length = h.len := by
  constructor
  · intro hr
    unfold receive at hr
    split at hr
    · dsimp only at hr
      split at hr
      · rename_i hle
        simp only [Option.some.injEq, Prod.mk.injEq] at hr
        obtain ⟨rfl, rfl, rfl⟩ := hr
        exact ⟨by simp [Header.bytes], by simpa using hle⟩
      · simp at hr
    · simp at hr
  · rintro ⟨rfl, hl⟩
    obtain ⟨h0, h1, h2, h3⟩ := h
    simp [Header.bytes, receive, ← hl]

/-- `LEN` of an encoder's header is the payload count, when that fits 16 bits (R71). -/
theorem headerOf_len (opc : Byte) {n : Nat} (h : n < 65536) : (headerOf opc n).len = n := by
  simp only [Header.len, headerOf, BitVec.toNat_ofNat]
  omega

/-- Every `LEN` fits 16 bits (R71). -/
theorem header_len_lt (h : Header) : h.len < 65536 := by
  have := h.h2.isLt
  have := h.h3.isLt
  simp only [Header.len]
  omega

/-- A header is the encoder's for its own opcode and count when its `RSVD` is 0 (R71). -/
theorem headerOf_self {h : Header} (hr : h.h1 = 0x00#8) : headerOf h.h0 h.len = h := by
  obtain ⟨h0, h1, h2, h3⟩ := h
  subst hr
  have := h2.isLt
  have := h3.isLt
  simp only [headerOf, Header.len, Header.mk.injEq, true_and]
  constructor <;> apply BitVec.eq_of_toNat_eq <;> simp <;> omega

end Sys2Proof
end

