-- ==== Sys2Proof/Laws/State.lean ====
section
/-!
SUPPORT. One lemma per field of State for each named update of `Sys2Proof/Machine/Ops.lean`, so that no later proof
unfolds a record update.
-/

namespace Sys2Proof.Machine

@[simp] theorem respond_cfg (r : Response) (s : State) : (respond r s).cfg = s.cfg := rfl
@[simp] theorem respond_buf (r : Response) (s : State) : (respond r s).buf = s.buf := rfl
@[simp] theorem respond_posHead (r : Response) (s : State) : (respond r s).posHead = s.posHead := rfl
@[simp] theorem respond_ended (r : Response) (s : State) : (respond r s).ended = s.ended := rfl
@[simp] theorem respond_cfgOk (r : Response) (s : State) : (respond r s).cfgOk = s.cfgOk := rfl
@[simp] theorem respond_cntNoSync (r : Response) (s : State) : (respond r s).cntNoSync = s.cntNoSync := rfl
@[simp] theorem respond_cntCrcErr (r : Response) (s : State) : (respond r s).cntCrcErr = s.cntCrcErr := rfl
@[simp] theorem respond_cntPkt (r : Response) (s : State) : (respond r s).cntPkt = s.cntPkt := rfl
@[simp] theorem respond_rx (r : Response) (s : State) : (respond r s).rx = s.rx := rfl
@[simp] theorem respond_resp (r : Response) (s : State) : (respond r s).resp = s.resp ++ r.encode := rfl
@[simp] theorem respond_taken (r : Response) (s : State) : (respond r s).taken = s.taken := rfl
@[simp] theorem respond_hostActs (r : Response) (s : State) : (respond r s).hostActs = s.hostActs := rfl

@[simp] theorem raiseError_cfg (e : RaisedError) (s : State) : (raiseError e s).cfg = s.cfg := rfl
@[simp] theorem raiseError_buf (e : RaisedError) (s : State) : (raiseError e s).buf = s.buf := rfl
@[simp] theorem raiseError_posHead (e : RaisedError) (s : State) : (raiseError e s).posHead = s.posHead := rfl
@[simp] theorem raiseError_ended (e : RaisedError) (s : State) : (raiseError e s).ended = s.ended := rfl
@[simp] theorem raiseError_cfgOk (e : RaisedError) (s : State) : (raiseError e s).cfgOk = s.cfgOk := rfl
@[simp] theorem raiseError_cntNoSync (e : RaisedError) (s : State) : (raiseError e s).cntNoSync = s.cntNoSync := rfl
@[simp] theorem raiseError_cntCrcErr (e : RaisedError) (s : State) : (raiseError e s).cntCrcErr = s.cntCrcErr := rfl
@[simp] theorem raiseError_cntPkt (e : RaisedError) (s : State) : (raiseError e s).cntPkt = s.cntPkt := rfl
@[simp] theorem raiseError_rx (e : RaisedError) (s : State) : (raiseError e s).rx = s.rx := rfl
@[simp] theorem raiseError_resp (e : RaisedError) (s : State) : (raiseError e s).resp = s.resp ++ e.response.encode := rfl
@[simp] theorem raiseError_taken (e : RaisedError) (s : State) : (raiseError e s).taken = s.taken := rfl
@[simp] theorem raiseError_hostActs (e : RaisedError) (s : State) : (raiseError e s).hostActs = s.hostActs := rfl

@[simp] theorem appendBits_cfg (bits : List Bit) (s : State) : (appendBits bits s).cfg = s.cfg := rfl
@[simp] theorem appendBits_buf (bits : List Bit) (s : State) : (appendBits bits s).buf = s.buf ++ bits := rfl
@[simp] theorem appendBits_posHead (bits : List Bit) (s : State) : (appendBits bits s).posHead = s.posHead := rfl
@[simp] theorem appendBits_ended (bits : List Bit) (s : State) : (appendBits bits s).ended = s.ended := rfl
@[simp] theorem appendBits_cfgOk (bits : List Bit) (s : State) : (appendBits bits s).cfgOk = s.cfgOk := rfl
@[simp] theorem appendBits_cntNoSync (bits : List Bit) (s : State) : (appendBits bits s).cntNoSync = s.cntNoSync := rfl
@[simp] theorem appendBits_cntCrcErr (bits : List Bit) (s : State) : (appendBits bits s).cntCrcErr = s.cntCrcErr := rfl
@[simp] theorem appendBits_cntPkt (bits : List Bit) (s : State) : (appendBits bits s).cntPkt = s.cntPkt := rfl
@[simp] theorem appendBits_rx (bits : List Bit) (s : State) : (appendBits bits s).rx = s.rx := rfl
@[simp] theorem appendBits_resp (bits : List Bit) (s : State) : (appendBits bits s).resp = s.resp := rfl
@[simp] theorem appendBits_taken (bits : List Bit) (s : State) : (appendBits bits s).taken = s.taken := rfl
@[simp] theorem appendBits_hostActs (bits : List Bit) (s : State) : (appendBits bits s).hostActs = s.hostActs := rfl

@[simp] theorem countNoSync_cfg (s : State) : (countNoSync s).cfg = s.cfg := rfl
@[simp] theorem countNoSync_buf (s : State) : (countNoSync s).buf = s.buf := rfl
@[simp] theorem countNoSync_posHead (s : State) : (countNoSync s).posHead = s.posHead := rfl
@[simp] theorem countNoSync_ended (s : State) : (countNoSync s).ended = s.ended := rfl
@[simp] theorem countNoSync_cfgOk (s : State) : (countNoSync s).cfgOk = s.cfgOk := rfl
@[simp] theorem countNoSync_cntNoSync (s : State) : (countNoSync s).cntNoSync = s.cntNoSync + 1#32 := rfl
@[simp] theorem countNoSync_cntCrcErr (s : State) : (countNoSync s).cntCrcErr = s.cntCrcErr := rfl
@[simp] theorem countNoSync_cntPkt (s : State) : (countNoSync s).cntPkt = s.cntPkt := rfl
@[simp] theorem countNoSync_rx (s : State) : (countNoSync s).rx = s.rx := rfl
@[simp] theorem countNoSync_resp (s : State) : (countNoSync s).resp = s.resp := rfl
@[simp] theorem countNoSync_taken (s : State) : (countNoSync s).taken = s.taken := rfl
@[simp] theorem countNoSync_hostActs (s : State) : (countNoSync s).hostActs = s.hostActs := rfl

@[simp] theorem countCrcErr_cfg (s : State) : (countCrcErr s).cfg = s.cfg := rfl
@[simp] theorem countCrcErr_buf (s : State) : (countCrcErr s).buf = s.buf := rfl
@[simp] theorem countCrcErr_posHead (s : State) : (countCrcErr s).posHead = s.posHead := rfl
@[simp] theorem countCrcErr_ended (s : State) : (countCrcErr s).ended = s.ended := rfl
@[simp] theorem countCrcErr_cfgOk (s : State) : (countCrcErr s).cfgOk = s.cfgOk := rfl
@[simp] theorem countCrcErr_cntNoSync (s : State) : (countCrcErr s).cntNoSync = s.cntNoSync := rfl
@[simp] theorem countCrcErr_cntCrcErr (s : State) : (countCrcErr s).cntCrcErr = s.cntCrcErr + 1#32 := rfl
@[simp] theorem countCrcErr_cntPkt (s : State) : (countCrcErr s).cntPkt = s.cntPkt := rfl
@[simp] theorem countCrcErr_rx (s : State) : (countCrcErr s).rx = s.rx := rfl
@[simp] theorem countCrcErr_resp (s : State) : (countCrcErr s).resp = s.resp := rfl
@[simp] theorem countCrcErr_taken (s : State) : (countCrcErr s).taken = s.taken := rfl
@[simp] theorem countCrcErr_hostActs (s : State) : (countCrcErr s).hostActs = s.hostActs := rfl

@[simp] theorem countPkt_cfg (s : State) : (countPkt s).cfg = s.cfg := rfl
@[simp] theorem countPkt_buf (s : State) : (countPkt s).buf = s.buf := rfl
@[simp] theorem countPkt_posHead (s : State) : (countPkt s).posHead = s.posHead := rfl
@[simp] theorem countPkt_ended (s : State) : (countPkt s).ended = s.ended := rfl
@[simp] theorem countPkt_cfgOk (s : State) : (countPkt s).cfgOk = s.cfgOk := rfl
@[simp] theorem countPkt_cntNoSync (s : State) : (countPkt s).cntNoSync = s.cntNoSync := rfl
@[simp] theorem countPkt_cntCrcErr (s : State) : (countPkt s).cntCrcErr = s.cntCrcErr := rfl
@[simp] theorem countPkt_cntPkt (s : State) : (countPkt s).cntPkt = s.cntPkt + 1#32 := rfl
@[simp] theorem countPkt_rx (s : State) : (countPkt s).rx = s.rx := rfl
@[simp] theorem countPkt_resp (s : State) : (countPkt s).resp = s.resp := rfl
@[simp] theorem countPkt_taken (s : State) : (countPkt s).taken = s.taken := rfl
@[simp] theorem countPkt_hostActs (s : State) : (countPkt s).hostActs = s.hostActs := rfl

@[simp] theorem takeResponse_cfg (s : State) : (takeResponse s).cfg = s.cfg := rfl
@[simp] theorem takeResponse_buf (s : State) : (takeResponse s).buf = s.buf := rfl
@[simp] theorem takeResponse_posHead (s : State) : (takeResponse s).posHead = s.posHead := rfl
@[simp] theorem takeResponse_ended (s : State) : (takeResponse s).ended = s.ended := rfl
@[simp] theorem takeResponse_cfgOk (s : State) : (takeResponse s).cfgOk = s.cfgOk := rfl
@[simp] theorem takeResponse_cntNoSync (s : State) : (takeResponse s).cntNoSync = s.cntNoSync := rfl
@[simp] theorem takeResponse_cntCrcErr (s : State) : (takeResponse s).cntCrcErr = s.cntCrcErr := rfl
@[simp] theorem takeResponse_cntPkt (s : State) : (takeResponse s).cntPkt = s.cntPkt := rfl
@[simp] theorem takeResponse_rx (s : State) : (takeResponse s).rx = s.rx := rfl
@[simp] theorem takeResponse_resp (s : State) : (takeResponse s).resp = [] := rfl
@[simp] theorem takeResponse_taken (s : State) : (takeResponse s).taken = s.taken ++ s.resp := rfl
@[simp] theorem takeResponse_hostActs (s : State) : (takeResponse s).hostActs = s.hostActs := rfl

@[simp] theorem resetRecord_cfg (s : State) : (resetRecord s).cfg = s.cfg := rfl
@[simp] theorem resetRecord_buf (s : State) : (resetRecord s).buf = [] := rfl
@[simp] theorem resetRecord_posHead (s : State) : (resetRecord s).posHead = 0 := rfl
@[simp] theorem resetRecord_ended (s : State) : (resetRecord s).ended = false := rfl
@[simp] theorem resetRecord_cfgOk (s : State) : (resetRecord s).cfgOk = configWf s.cfg := rfl
@[simp] theorem resetRecord_cntNoSync (s : State) : (resetRecord s).cntNoSync = 0#32 := rfl
@[simp] theorem resetRecord_cntCrcErr (s : State) : (resetRecord s).cntCrcErr = 0#32 := rfl
@[simp] theorem resetRecord_cntPkt (s : State) : (resetRecord s).cntPkt = 0#32 := rfl
@[simp] theorem resetRecord_rx (s : State) : (resetRecord s).rx = s.rx := rfl
@[simp] theorem resetRecord_resp (s : State) : (resetRecord s).resp = s.resp := rfl
@[simp] theorem resetRecord_taken (s : State) : (resetRecord s).taken = s.taken := rfl
@[simp] theorem resetRecord_hostActs (s : State) : (resetRecord s).hostActs = s.hostActs := rfl

@[simp] theorem powerOnReset_cfg (s : State) : (powerOnReset s).cfg = s.cfg := rfl
@[simp] theorem powerOnReset_buf (s : State) : (powerOnReset s).buf = [] := rfl
@[simp] theorem powerOnReset_posHead (s : State) : (powerOnReset s).posHead = 0 := rfl
@[simp] theorem powerOnReset_ended (s : State) : (powerOnReset s).ended = false := rfl
@[simp] theorem powerOnReset_cfgOk (s : State) : (powerOnReset s).cfgOk = configWf s.cfg := rfl
@[simp] theorem powerOnReset_cntNoSync (s : State) : (powerOnReset s).cntNoSync = 0#32 := rfl
@[simp] theorem powerOnReset_cntCrcErr (s : State) : (powerOnReset s).cntCrcErr = 0#32 := rfl
@[simp] theorem powerOnReset_cntPkt (s : State) : (powerOnReset s).cntPkt = 0#32 := rfl
@[simp] theorem powerOnReset_rx (s : State) : (powerOnReset s).rx = [] := rfl
@[simp] theorem powerOnReset_resp (s : State) : (powerOnReset s).resp = s.resp := rfl
@[simp] theorem powerOnReset_taken (s : State) : (powerOnReset s).taken = s.taken := rfl
@[simp] theorem powerOnReset_hostActs (s : State) : (powerOnReset s).hostActs = s.hostActs := rfl

/-! The block right after power-on (R36). -/

@[simp] theorem powerOn_cfg (c : Config) : (State.powerOn c).cfg = c := rfl
@[simp] theorem powerOn_buf (c : Config) : (State.powerOn c).buf = [] := rfl
@[simp] theorem powerOn_posHead (c : Config) : (State.powerOn c).posHead = 0 := rfl
@[simp] theorem powerOn_ended (c : Config) : (State.powerOn c).ended = false := rfl
@[simp] theorem powerOn_cfgOk (c : Config) : (State.powerOn c).cfgOk = configWf c := rfl
@[simp] theorem powerOn_cntNoSync (c : Config) : (State.powerOn c).cntNoSync = 0#32 := rfl
@[simp] theorem powerOn_cntCrcErr (c : Config) : (State.powerOn c).cntCrcErr = 0#32 := rfl
@[simp] theorem powerOn_cntPkt (c : Config) : (State.powerOn c).cntPkt = 0#32 := rfl
@[simp] theorem powerOn_rx (c : Config) : (State.powerOn c).rx = [] := rfl
@[simp] theorem powerOn_resp (c : Config) : (State.powerOn c).resp = [] := rfl
@[simp] theorem powerOn_taken (c : Config) : (State.powerOn c).taken = [] := rfl
@[simp] theorem powerOn_hostActs (c : Config) : (State.powerOn c).hostActs = [] := rfl

end Sys2Proof.Machine
end

