-- ==== Sys2Proof/Laws/Ops.lean ====
section
/-!
SUPPORT. One lemma per shared operation that says all it can do; later proofs cite these and unfold nothing.
-/

namespace Sys2Proof.Machine

theorem occursAt_iff {pat buf : List Bit} {p : Nat} :
    occursAt pat buf p = true ↔ p + pat.length ≤ buf.length ∧ (buf.drop p).take pat.length = pat := by
  simp [occursAt]

/-- `find` answers the least match whose start is in the window (R103). -/
theorem find_some_iff {pat buf : List Bit} {a b p : Nat} :
    find pat buf a b = some p ↔
      a ≤ p ∧ p < b ∧ occursAt pat buf p = true ∧ ∀ q, a ≤ q → q < p → occursAt pat buf q = false := by
  unfold find
  rw [List.find?_range'_eq_some]
  simp only [Bool.not_eq_true', List.mem_range'_1]
  constructor
  · rintro ⟨h, hp, hall⟩
    exact ⟨hp.1, by omega, h, fun q hq hqp => hall q hq hqp⟩
  · rintro ⟨hap, hpb, hocc, hall⟩
    exact ⟨hocc, ⟨hap, by omega⟩, fun q hq hqp => hall q hq hqp⟩

/-- `find` answers NONE exactly when no match starts in the window (R103). -/
theorem find_none_iff {pat buf : List Bit} {a b : Nat} :
    find pat buf a b = none ↔ ∀ q, a ≤ q → q < b → occursAt pat buf q = false := by
  unfold find
  simp only [List.find?_eq_none, List.mem_range'_1, Bool.not_eq_true]
  constructor
  · intro h q hq hqb
    exact h q ⟨hq, by omega⟩
  · rintro h q ⟨hq, hqb⟩
    exact h q hq (by omega)

/-- All that `advance` can do (R106). -/
theorem advance_eq_some {n : Nat} {s t : State} :
    advance n s = some t ↔ n ≤ s.buf.length ∧ t = { s with buf := s.buf.drop n, posHead := s.posHead + n } := by
  unfold advance
  split
  · simp_all [eq_comm]
  · simp_all

theorem advance_of_le {n : Nat} {s : State} (h : n ≤ s.buf.length) :
    advance n s = some { s with buf := s.buf.drop n, posHead := s.posHead + n } := by simp [advance, h]

/-- All that the checks of APPEND, ATTEMPT and END can do, in their order (R259). -/
theorem whenOpen_cases {s : State} {k r : Result} (h : whenOpen s k = r) :
    (s.cfgOk = false ∧ r = .next (raiseError .formatError s)) ∨
    (s.cfgOk = true ∧ s.ended = true ∧ r = .next (raiseError .streamEnded s)) ∨
    (s.cfgOk = true ∧ s.ended = false ∧ k = r) := by
  unfold whenOpen at h
  split at h
  · exact .inl ⟨‹_›, h.symm⟩
  · rename_i hc
    split at h
    · exact .inr (.inl ⟨by simpa using hc, ‹_›, h.symm⟩)
    · rename_i he
      exact .inr (.inr ⟨by simpa using hc, by simpa using he, h⟩)

theorem whenOpen_open {s : State} (k : Result) (hc : s.cfgOk = true) (he : s.ended = false) :
    whenOpen s k = k := by simp [whenOpen, hc, he]

/-- The window never reaches past the buffer (R133). -/
theorem searchLimit_le (c : Config) (len : Nat) (hF : 1 ≤ c.frameBits) : searchLimit c len ≤ len := by
  unfold searchLimit; split <;> omega

/-- A start offset in the window leaves room for a whole frame (R131). -/
theorem frame_fits_of_lt_searchLimit {c : Config} {len p : Nat} (h : p < searchLimit c len) :
    p + c.frameBits ≤ len := by
  unfold searchLimit at h; split at h <;> omega

/-- All that a read of a frame or a parameter can do. -/
theorem readBits_eq_ok {s : List Bit} {a n : Nat} {t : List Bit} :
    readBits s a n = .ok t ↔ a + n ≤ s.length ∧ t = (s.drop a).take n := by
  unfold readBits slice
  split <;> rename_i h <;> split at h <;> simp_all [eq_comm]

theorem readBits_of_le {s : List Bit} {a n : Nat} (h : a + n ≤ s.length) :
    readBits s a n = .ok ((s.drop a).take n) := readBits_eq_ok.mpr ⟨h, rfl⟩

/-- The dewhitener on a mask that is long enough (R160). -/
theorem dewhiten_of_le {c : Config} (raw : List Bit) (h : c.frameBits ≤ c.whitenMask.length) :
    dewhiten c raw = .ok (xorBits raw (c.whitenMask.take c.frameBits)) := by
  simp [dewhiten, readBits_of_le (a := 0) (n := c.frameBits) (s := c.whitenMask) (by omega)]

theorem crcInput_of_le {c : Config} {clr : List Bit} (h : 8 * c.crcCoverBytes ≤ clr.length) :
    crcInput c clr = .ok (bytesOf (clr.take (8 * c.crcCoverBytes))) := by
  simp [crcInput, readBits_of_le (a := 0) (n := 8 * c.crcCoverBytes) (s := clr) (by omega)]

theorem crcReceived_of_le {c : Config} {clr : List Bit} (h : c.crcFieldOffset + 16 ≤ clr.length) :
    crcReceived c clr = .ok (BitVec.ofNat 16 (be ((clr.drop c.crcFieldOffset).take 16))) := by
  simp [crcReceived, readBits_of_le h]

theorem readField_of_le {clr : List Bit} {e : FieldEntry} (h : e.off + e.width ≤ clr.length) :
    readField clr e = .ok (BitVec.ofNat 32 (fieldValue e.order ((clr.drop e.off).take e.width))) := by
  simp [readField, readBits_of_le h]

/-- The field decoder on a table whose entries all lie in the frame (R200). -/
theorem readFields_of_le {clr : List Bit} {t : List FieldEntry}
    (h : ∀ e ∈ t, e.off + e.width ≤ clr.length) :
    readFields clr t =
      .ok (t.map fun e => BitVec.ofNat 32 (fieldValue e.order ((clr.drop e.off).take e.width))) := by
  induction t with
  | nil => rfl
  | cons e es ih =>
    have he := readField_of_le (h e (by simp))
    have hs := ih fun f hf => h f (by simp [hf])
    simp only [readFields, he, hs, List.map_cons]
    rfl

/-- What the configuration check says, condition by condition (R231). -/
theorem configWf_iff {c : Config} : configWf c = true ↔
    1 ≤ c.syncW ∧ c.syncW ≤ c.frameBits ∧ c.syncWord.length = c.syncW ∧
    c.frameBits ≤ c.whitenMask.length ∧
    1 ≤ c.crcCoverBytes ∧ 8 * c.crcCoverBytes ≤ c.frameBits ∧ c.crcFieldOffset + 16 ≤ c.frameBits ∧
    fieldTableWf c.frameBits c.fieldTable = true ∧
    1 ≤ c.chunkMaxBytes ∧ c.chunkMaxBytes ≤ 65535 ∧
    c.frameBits + 8 * c.chunkMaxBytes ≤ c.bufCapBits ∧ c.bufCapBits < 2 ^ 32 := by
  simp [configWf, and_assoc]

/-- Every entry of a well-formed table has a width from 1 to 32 and lies in the frame (R231, condition 6). -/
theorem fieldTableWf_entry {F : Nat} {t : List FieldEntry} (h : fieldTableWf F t = true) :
    ∀ e ∈ t, 1 ≤ e.width ∧ e.width ≤ 32 ∧ e.off + e.width ≤ F := by
  intro e he
  simp only [fieldTableWf, Bool.and_eq_true, List.all_eq_true, entryWf, decide_eq_true_eq] at h
  have := h.1.2 e he
  exact ⟨this.1.1, this.1.2, this.2⟩

theorem fieldTableWf_length {F : Nat} {t : List FieldEntry} (h : fieldTableWf F t = true) :
    1 ≤ t.length ∧ t.length ≤ 16 := by
  simp only [fieldTableWf, Bool.and_eq_true, decide_eq_true_eq] at h
  exact ⟨h.1.1.1, h.1.1.2⟩

end Sys2Proof.Machine
end

