-- ==== Sys2Proof/Laws/Memory.lean ====
section
/-!
SUPPORT. Every operation on the bit buffer keeps it within its capacity (R21), and the buffer after reset is within
it.
-/

namespace Sys2Proof.Machine

theorem memory_wf_iff {cap : Nat} {buf : List Bit} : Memory.wf cap buf = true ↔ buf.length ≤ cap := by
  simp [Memory.wf]

@[simp] theorem memory_wf_nil (cap : Nat) : Memory.wf cap [] = true := by simp [Memory.wf]

/-- APPEND's check keeps the buffer within its capacity (R100). -/
theorem appendBits_keeps_wf {bits : List Bit} {s : State} (h : s.buf.length + bits.length ≤ s.cfg.bufCapBits) :
    Memory.wf (appendBits bits s).cfg.bufCapBits (appendBits bits s).buf = true := by
  simpa [memory_wf_iff] using h

/-- `advance` keeps the buffer within its capacity (R106). -/
theorem advance_keeps_wf {n : Nat} {s t : State} (h : advance n s = some t)
    (hs : Memory.wf s.cfg.bufCapBits s.buf = true) : Memory.wf t.cfg.bufCapBits t.buf = true := by
  obtain ⟨_, rfl⟩ := advance_eq_some.mp h
  simp only [memory_wf_iff, List.length_drop] at hs ⊢
  omega

theorem resetRecord_wf (s : State) : Memory.wf (resetRecord s).cfg.bufCapBits (resetRecord s).buf = true := by
  simp

theorem reset_memory_wf : Memory.wf State.reset.cfg.bufCapBits State.reset.buf = true := memory_wf_nil _

end Sys2Proof.Machine
end

