-- ==== Sys2Proof/Laws/Exec.lean ====
section
/-!
SUPPORT. What each command's meaning and the step can do, said once: every later proof starts from these cases.
-/

namespace Sys2Proof.Machine

/-- Everything APPEND can do (R100, R259). -/
theorem execAppend_cases {d : List Byte} {s t : State} (h : execAppend d s = .next t) :
    (s.cfgOk = false ∧ t = respond .formatError s) ∨
    (s.cfgOk = true ∧ s.ended = true ∧ t = respond .streamEnded s) ∨
    (s.cfgOk = true ∧ s.ended = false ∧ s.cfg.bufCapBits < s.buf.length + 8 * d.length ∧
      t = respond .bufferOverflow s) ∨
    (s.cfgOk = true ∧ s.ended = false ∧ s.buf.length + 8 * d.length ≤ s.cfg.bufCapBits ∧
      t = respond .ok (appendBits (bitsOf d) s)) := by
  rcases whenOpen_cases h with ⟨hc, ht⟩ | ⟨hc, he, ht⟩ | ⟨hc, he, hk⟩
  · exact .inl ⟨hc, Host.Outcome.next.inj ht⟩
  · exact .inr (.inl ⟨hc, he, Host.Outcome.next.inj ht⟩)
  · split at hk <;> rename_i hcap <;> simp only [Host.Outcome.next.injEq] at hk <;> subst hk
    · exact .inr (.inr (.inl ⟨hc, he, hcap, rfl⟩))
    · exact .inr (.inr (.inr ⟨hc, he, by omega, rfl⟩))

/-- Everything END can do (R233, R259). -/
theorem execEndStream_cases {s t : State} (h : execEndStream s = .next t) :
    (s.cfgOk = false ∧ t = respond .formatError s) ∨
    (s.cfgOk = true ∧ s.ended = true ∧ t = respond .streamEnded s) ∨
    (s.cfgOk = true ∧ s.ended = false ∧
      t = respond .ok { s with buf := [], posHead := s.posHead + s.buf.length, ended := true }) := by
  rcases whenOpen_cases h with ⟨hc, ht⟩ | ⟨hc, he, ht⟩ | ⟨hc, he, hk⟩
  · exact .inl ⟨hc, Host.Outcome.next.inj ht⟩
  · exact .inr (.inl ⟨hc, he, Host.Outcome.next.inj ht⟩)
  · rw [advance_of_le (Nat.le_refl _)] at hk
    simp only [List.drop_length, Host.Outcome.next.injEq] at hk
    exact .inr (.inr ⟨hc, he, hk.symm⟩)

/-- The state that the hit path's `advance` leaves (R132). -/
def afterHit (s : State) (p : Nat) : State :=
  { s with buf := s.buf.drop (p + s.cfg.frameBits), posHead := s.posHead + (p + s.cfg.frameBits) }

/-- The state that the miss path's `advance` leaves (R133). -/
def afterMiss (s : State) : State :=
  { s with buf := s.buf.drop (searchLimit s.cfg s.buf.length)
           posHead := s.posHead + searchLimit s.cfg s.buf.length }

@[simp] theorem afterHit_cfg (s : State) (p : Nat) : (afterHit s p).cfg = s.cfg := rfl
@[simp] theorem afterHit_buf (s : State) (p : Nat) : (afterHit s p).buf = s.buf.drop (p + s.cfg.frameBits) := rfl
@[simp] theorem afterHit_posHead (s : State) (p : Nat) : (afterHit s p).posHead = s.posHead + (p + s.cfg.frameBits) := rfl
@[simp] theorem afterHit_ended (s : State) (p : Nat) : (afterHit s p).ended = s.ended := rfl
@[simp] theorem afterHit_cfgOk (s : State) (p : Nat) : (afterHit s p).cfgOk = s.cfgOk := rfl
@[simp] theorem afterHit_cntNoSync (s : State) (p : Nat) : (afterHit s p).cntNoSync = s.cntNoSync := rfl
@[simp] theorem afterHit_cntCrcErr (s : State) (p : Nat) : (afterHit s p).cntCrcErr = s.cntCrcErr := rfl
@[simp] theorem afterHit_cntPkt (s : State) (p : Nat) : (afterHit s p).cntPkt = s.cntPkt := rfl
@[simp] theorem afterHit_rx (s : State) (p : Nat) : (afterHit s p).rx = s.rx := rfl
@[simp] theorem afterHit_resp (s : State) (p : Nat) : (afterHit s p).resp = s.resp := rfl
@[simp] theorem afterHit_taken (s : State) (p : Nat) : (afterHit s p).taken = s.taken := rfl
@[simp] theorem afterHit_hostActs (s : State) (p : Nat) : (afterHit s p).hostActs = s.hostActs := rfl

@[simp] theorem afterMiss_cfg (s : State) : (afterMiss s).cfg = s.cfg := rfl
@[simp] theorem afterMiss_buf (s : State) : (afterMiss s).buf = s.buf.drop (searchLimit s.cfg s.buf.length) := rfl
@[simp] theorem afterMiss_posHead (s : State) : (afterMiss s).posHead = s.posHead + searchLimit s.cfg s.buf.length := rfl
@[simp] theorem afterMiss_ended (s : State) : (afterMiss s).ended = s.ended := rfl
@[simp] theorem afterMiss_cfgOk (s : State) : (afterMiss s).cfgOk = s.cfgOk := rfl
@[simp] theorem afterMiss_cntNoSync (s : State) : (afterMiss s).cntNoSync = s.cntNoSync := rfl
@[simp] theorem afterMiss_cntCrcErr (s : State) : (afterMiss s).cntCrcErr = s.cntCrcErr := rfl
@[simp] theorem afterMiss_cntPkt (s : State) : (afterMiss s).cntPkt = s.cntPkt := rfl
@[simp] theorem afterMiss_rx (s : State) : (afterMiss s).rx = s.rx := rfl
@[simp] theorem afterMiss_resp (s : State) : (afterMiss s).resp = s.resp := rfl
@[simp] theorem afterMiss_taken (s : State) : (afterMiss s).taken = s.taken := rfl
@[simp] theorem afterMiss_hostActs (s : State) : (afterMiss s).hostActs = s.hostActs := rfl

@[simp] theorem finishFrame_cfg (start : Word) (o : FrameOutcome) (t : State) :
    (finishFrame start o t).cfg = t.cfg := by cases o <;> rfl
@[simp] theorem finishFrame_buf (start : Word) (o : FrameOutcome) (t : State) :
    (finishFrame start o t).buf = t.buf := by cases o <;> rfl
@[simp] theorem finishFrame_posHead (start : Word) (o : FrameOutcome) (t : State) :
    (finishFrame start o t).posHead = t.posHead := by cases o <;> rfl
@[simp] theorem finishFrame_ended (start : Word) (o : FrameOutcome) (t : State) :
    (finishFrame start o t).ended = t.ended := by cases o <;> rfl
@[simp] theorem finishFrame_cfgOk (start : Word) (o : FrameOutcome) (t : State) :
    (finishFrame start o t).cfgOk = t.cfgOk := by cases o <;> rfl
@[simp] theorem finishFrame_cntNoSync (start : Word) (o : FrameOutcome) (t : State) :
    (finishFrame start o t).cntNoSync = t.cntNoSync := by cases o <;> rfl
@[simp] theorem finishFrame_rx (start : Word) (o : FrameOutcome) (t : State) :
    (finishFrame start o t).rx = t.rx := by cases o <;> rfl
@[simp] theorem finishFrame_taken (start : Word) (o : FrameOutcome) (t : State) :
    (finishFrame start o t).taken = t.taken := by cases o <;> rfl
@[simp] theorem finishFrame_hostActs (start : Word) (o : FrameOutcome) (t : State) :
    (finishFrame start o t).hostActs = t.hostActs := by cases o <;> rfl

/-- Everything the hit path can do (R132, R135). -/
theorem hitPath_eq {s : State} {p : Nat} (h : p + s.cfg.frameBits ≤ s.buf.length) :
    hitPath p s =
      match processFrame s.cfg ((s.buf.drop p).take s.cfg.frameBits) with
      | .error f => .fault f
      | .ok o => .next (finishFrame (startWord s p) o (afterHit s p)) := by
  simp only [hitPath, slice_of_le h, advance_of_le h]
  rfl

/-- Everything the miss path can do (R133, R135). -/
theorem missPath_eq {s : State} (h : searchLimit s.cfg s.buf.length ≤ s.buf.length) :
    missPath (searchLimit s.cfg s.buf.length) s = .next (respond .noFrame (countNoSync (afterMiss s))) := by
  simp only [missPath, advance_of_le h]
  rfl

/-- Everything ATTEMPT can do when it answers a next state (R135, R259). -/
theorem execAttempt_cases {s t : State} (h : execAttempt s = .next t) :
    (s.cfgOk = false ∧ t = respond .formatError s) ∨
    (s.cfgOk = true ∧ s.ended = true ∧ t = respond .streamEnded s) ∨
    (s.cfgOk = true ∧ s.ended = false ∧
      find s.cfg.syncWord s.buf 0 (searchLimit s.cfg s.buf.length) = none ∧
      searchLimit s.cfg s.buf.length ≤ s.buf.length ∧
      t = respond .noFrame (countNoSync (afterMiss s))) ∨
    (s.cfgOk = true ∧ s.ended = false ∧ ∃ p o,
      find s.cfg.syncWord s.buf 0 (searchLimit s.cfg s.buf.length) = some p ∧
      p + s.cfg.frameBits ≤ s.buf.length ∧
      processFrame s.cfg ((s.buf.drop p).take s.cfg.frameBits) = .ok o ∧
      t = finishFrame (startWord s p) o (afterHit s p)) := by
  rcases whenOpen_cases h with ⟨hc, ht⟩ | ⟨hc, he, ht⟩ | ⟨hc, he, hk⟩
  · exact .inl ⟨hc, Host.Outcome.next.inj ht⟩
  · exact .inr (.inl ⟨hc, he, Host.Outcome.next.inj ht⟩)
  · unfold attemptOnce at hk
    split at hk
    · rename_i hf
      refine .inr (.inr (.inl ⟨hc, he, hf, ?_⟩))
      by_cases hle : searchLimit s.cfg s.buf.length ≤ s.buf.length
      · rw [missPath_eq hle] at hk
        simp only [Host.Outcome.next.injEq] at hk
        exact ⟨hle, hk.symm⟩
      · simp [missPath, advance, hle] at hk
    · rename_i p hf
      have hfit := frame_fits_of_lt_searchLimit (find_some_iff.mp hf).2.1
      rw [hitPath_eq hfit] at hk
      split at hk
      · simp at hk
      · rename_i o ho
        simp only [Host.Outcome.next.injEq] at hk
        exact .inr (.inr (.inr ⟨hc, he, p, o, hf, hfit, ho, hk.symm⟩))

theorem cleartext_length {c : Config} {raw : List Bit} (hm : c.frameBits ≤ c.whitenMask.length)
    (hr : raw.length = c.frameBits) : (cleartext c raw).length = c.frameBits := by
  simp [cleartext, hr]; omega

/-- The pipeline on a whole frame under a well-formed configuration always has an outcome (R135, R183, R204). -/
theorem processFrame_wf {c : Config} {raw : List Bit} (hc : configWf c = true) (hr : raw.length = c.frameBits) :
    processFrame c raw =
      .ok (if crcComputed c (cleartext c raw) ≠ crcCarried c (cleartext c raw) then
          .mismatch (crcComputed c (cleartext c raw)) (crcCarried c (cleartext c raw))
        else .packet (fieldWords c (cleartext c raw))) := by
  obtain ⟨-, -, -, hmask, -, hcov, hoff, htab, -⟩ := configWf_iff.mp hc
  have hlen := cleartext_length hmask hr
  have hdw : dewhiten c raw = .ok (cleartext c raw) := dewhiten_of_le raw hmask
  generalize cleartext c raw = clr at hlen hdw ⊢
  have hin := crcInput_of_le (c := c) (clr := clr) (by omega)
  have hrx : crcReceived c clr = .ok (crcCarried c clr) := crcReceived_of_le (by omega)
  have hfields : decodeFields c clr = .ok (fieldWords c clr) := by
    rw [decodeFields, if_neg (by simp [hlen])]
    exact readFields_of_le fun e he => hlen ▸ (fieldTableWf_entry htab e he).2.2
  have hcomp : crc16 c (bytesOf (clr.take (8 * c.crcCoverBytes))) = crcComputed c clr := rfl
  simp only [processFrame, hdw, hin, hrx, hfields, bind, Except.bind, pure, Except.pure, hcomp]
  split <;> rfl

/-- Everything one framed command can do (R77, R256). -/
theorem runDecoded_cases {d : Decoded} {s t : State} (h : runDecoded d s = .next t) :
    (∃ i, d = .command i ∧ exec i s = .next t) ∨
    (∃ why hd, d = .illegal why hd ∧ t = respond (.illegalCommand hd) s) := by
  cases d with
  | command i => exact .inl ⟨i, rfl, h⟩
  | illegal why hd => exact .inr ⟨why, hd, rfl, (Host.Outcome.next.inj h).symm⟩

/-- Everything the block's turn can do when it answers a next state (R72, R267, R282). -/
theorem blockTurn_cases {s t : State} (h : blockTurn s = .next t) :
    (s.resp ≠ [] ∧ t = s) ∨
    (s.resp = [] ∧ decode s.cfg.chunkMaxBytes s.rx = none ∧ t = s) ∨
    (s.resp = [] ∧ ∃ d rest, decode s.cfg.chunkMaxBytes s.rx = some (d, rest) ∧
      runDecoded d { s with rx := rest } = .next t) := by
  unfold blockTurn at h
  split at h
  · rename_i hr
    exact .inl ⟨by simp [hr], by simpa [eq_comm] using h⟩
  · rename_i hr
    split at h
    · rename_i hd
      exact .inr (.inl ⟨hr, hd, by simpa [eq_comm] using h⟩)
    · rename_i d rest hd
      exact .inr (.inr ⟨hr, d, rest, hd, h⟩)

/-- Everything a step can do when it answers a next state: the block's turn, or one act of the host. -/
theorem step_cases {s t : State} (h : step s = .next t) :
    (s.hostActs = [] ∧ blockTurn s = .next t) ∨
    (∃ acts, s.hostActs = .wait :: acts ∧ blockTurn { s with hostActs := acts } = .next t) ∨
    (∃ a acts, a ≠ .wait ∧ s.hostActs = a :: acts ∧ t = hostAct a { s with hostActs := acts }) := by
  unfold step at h
  split at h
  · exact .inl ⟨‹_›, h⟩
  · rename_i acts ha
    exact .inr (.inl ⟨acts, ha, h⟩)
  · rename_i a acts hne ha
    exact .inr (.inr ⟨a, acts, hne, ha, (Host.Outcome.next.inj h).symm⟩)

theorem coreRun_next {M : Host.Core} {k : Nat} {s t : M.State} (h : M.step s = .next t) :
    M.run (k + 1) s = M.run k t := by simp [Host.Core.run, h]

theorem coreRun_fault {M : Host.Core} {k : Nat} {s : M.State} {f : M.Fault} (h : M.step s = .fault f) :
    M.run (k + 1) s = .fault f := by simp [Host.Core.run, h]

theorem coreRun_refused {M : Host.Core} {k : Nat} {s : M.State} {r : M.Refusal} (h : M.step s = .refused r) :
    M.run (k + 1) s = .refused r := by simp [Host.Core.run, h]

@[simp] theorem runSteps_zero (s : State) : runSteps 0 s = .next s := rfl

/-- A run of one step more is a step and the rest of the run. -/
theorem runSteps_succ (k : Nat) (s : State) : runSteps (k + 1) s =
    match step s with
    | .next t => runSteps k t
    | .fault f => .fault f
    | .refused r => .refused r := by
  cases h : step s with
  | next t => exact coreRun_next (M := Sys2Proof.core) h
  | fault f => exact coreRun_fault (M := Sys2Proof.core) h
  | refused r => exact coreRun_refused (M := Sys2Proof.core) h

end Sys2Proof.Machine
end

