-- ==== Sys2Proof/Laws/PerInstr.lean ====
section
/-!
SUPPORT. What is said of every command as syntax, one lemma per command.
-/

/-- The family HeaderForm: a well-formed command's bytes begin with a header whose `RSVD` is 0, whose opcode is in the
opcode map, and whose `LEN` counts the bytes that follow (30_encoding.md rules R71 to R73). -/
def Sys2Proof.Laws.HeaderForm.Statement (i : Sys2Proof.Instr) : Prop :=
  i.lenFits = true → ∃ h : Sys2Proof.Header, ∃ payload : List Sys2Proof.Byte,
    Sys2Proof.encode i = h.bytes ++ payload ∧ h.len = payload.length ∧ h.h1 = 0x00#8 ∧
    1 ≤ h.h0.toNat ∧ h.h0.toNat ≤ 5

namespace Sys2Proof.Laws.HeaderForm

theorem reset : Statement .reset := fun _ => ⟨headerOf 0x01#8 0, [], rfl, rfl, rfl, by decide, by decide⟩

theorem append (d : List Byte) : Statement (.append d) := by
  intro h
  have hd : d.length < 65536 := by simpa [Instr.lenFits] using h
  refine ⟨headerOf 0x02#8 d.length, d, rfl, ?_, rfl, Nat.le_add_left 1 1, Nat.le_add_left 2 3⟩
  simp only [Header.len, headerOf, BitVec.toNat_ofNat]
  omega

theorem attempt : Statement .attempt := fun _ => ⟨headerOf 0x03#8 0, [], rfl, rfl, rfl, by decide, by decide⟩

theorem status : Statement .status := fun _ => ⟨headerOf 0x04#8 0, [], rfl, rfl, rfl, by decide, by decide⟩

theorem endStream : Statement .endStream := fun _ => ⟨headerOf 0x05#8 0, [], rfl, rfl, rfl, by decide, by decide⟩

end Sys2Proof.Laws.HeaderForm
end

