-- ==== Sys2Proof/Laws/Schedule.lean ====
section
/-!
SUPPORT. How a command and the acts of the host go together: no meaning reads the list of acts, and a run of puts or of
takes moves its bytes across the channel (R70, R78, R282); and what a command sent by the host does.
-/

namespace Sys2Proof.Machine

/-- A command's meaning carries the list of acts along and does not read it (R266, R286). -/
theorem exec_hostActs (i : Instr) (s : State) (acts : List HostAct) :
    exec i { s with hostActs := acts } =
      match exec i s with
      | .next t => .next { t with hostActs := acts }
      | .fault f => .fault f
      | .refused r => .refused r := by
  cases i with
  | reset => rfl
  | status => rfl
  | append d =>
    obtain ⟨cfg, buf, ph, en, ok, c1, c2, c3, rx, resp, tk, ha⟩ := s
    cases ok
    · rfl
    cases en
    · simp only [exec, execAppend, whenOpen, Bool.true_eq_false, Bool.false_eq_true, if_false]
      by_cases hh : buf.length + 8 * d.length > cfg.bufCapBits
      · rw [if_pos hh, if_pos hh]; rfl
      · rw [if_neg hh, if_neg hh]; rfl
    · rfl
  | endStream =>
    obtain ⟨cfg, buf, ph, en, ok, c1, c2, c3, rx, resp, tk, ha⟩ := s
    cases ok
    · rfl
    cases en
    · simp [exec, execEndStream, whenOpen, advance, respond]
    · rfl
  | attempt =>
    obtain ⟨cfg, buf, ph, en, ok, c1, c2, c3, rx, resp, tk, ha⟩ := s
    cases ok
    · rfl
    cases en
    · simp only [exec, execAttempt, whenOpen, attemptOnce, Bool.true_eq_false, Bool.false_eq_true, if_false]
      cases hf : find cfg.syncWord buf 0 (searchLimit cfg buf.length) with
      | none =>
        simp only [missPath, advance]
        by_cases hh : searchLimit cfg buf.length ≤ buf.length
        · simp only [hh, if_true]; rfl
        · simp only [hh, if_false]
      | some p =>
        simp only [hitPath, advance]
        cases hs : slice buf p cfg.frameBits with
        | none => rfl
        | some raw =>
          simp only
          by_cases hh : p + cfg.frameBits ≤ buf.length
          · simp only [hh, if_true]
            cases ho : processFrame cfg raw with
            | error f => rfl
            | ok o => cases o <;> rfl
          · simp only [hh, if_false]
    · rfl

/-- The same of one framed command, legal or not. -/
theorem runDecoded_hostActs (d : Decoded) (s : State) (acts : List HostAct) :
    runDecoded d { s with hostActs := acts } =
      match runDecoded d s with
      | .next t => .next { t with hostActs := acts }
      | .fault f => .fault f
      | .refused r => .refused r := by
  cases d with
  | command i => exact exec_hostActs i s acts
  | illegal why h => rfl

@[simp] theorem sendCommand_reset (s : State) : sendCommand .reset s = exec .reset s := by
  simp [sendCommand, Instr.lenFits, decode, receive, encode, headerOf, Header.bytes, Header.len, classify, noPayload,
    runDecoded]

@[simp] theorem sendCommand_attempt (s : State) : sendCommand .attempt s = exec .attempt s := by
  simp [sendCommand, Instr.lenFits, decode, receive, encode, headerOf, Header.bytes, Header.len, classify, noPayload,
    runDecoded]

@[simp] theorem sendCommand_status (s : State) : sendCommand .status s = exec .status s := by
  simp [sendCommand, Instr.lenFits, decode, receive, encode, headerOf, Header.bytes, Header.len, classify, noPayload,
    runDecoded]

@[simp] theorem sendCommand_endStream (s : State) : sendCommand .endStream s = exec .endStream s := by
  simp [sendCommand, Instr.lenFits, decode, receive, encode, headerOf, Header.bytes, Header.len, classify, noPayload,
    runDecoded]


/-- All that an APPEND sent by the host can do: it runs, it is an illegal command (R74, R75, R100), or its payload has no
encoding and nothing is sent (R71). -/
theorem sendCommand_append (d : List Byte) (s : State) :
    sendCommand (.append d) s =
      if 65536 ≤ d.length then .next s
      else if d.length ≤ s.cfg.chunkMaxBytes then exec (.append d) s
      else .next (raiseError (.illegalCommand (headerOf 0x02#8 d.length)) s) := by
  by_cases hbig : 65536 ≤ d.length
  · simp [sendCommand, Instr.lenFits, hbig, Nat.not_lt.mpr hbig]
  have h : d.length < 65536 := Nat.lt_of_not_le hbig
  have hl : (headerOf 0x02#8 d.length).len = d.length := headerOf_len 0x02#8 h
  have hr : receive (encode (.append d)) = some (headerOf 0x02#8 d.length, d, []) :=
    receive_eq_some.mpr ⟨by simp [encode], hl.symm⟩
  have hc : classify s.cfg.chunkMaxBytes (headerOf 0x02#8 d.length) d =
      if d.length ≤ s.cfg.chunkMaxBytes then .command (.append d)
      else .illegal .chunkTooLong (headerOf 0x02#8 d.length) := by
    rw [classify, if_neg (by simp [headerOf]), if_neg (by simp [headerOf]), if_pos (by rfl), hl]
  rw [sendCommand, if_pos (by simpa [Instr.lenFits] using h), decode, hr, if_neg hbig]
  simp only [hc]
  split <;> rfl

/-- A run that starts with puts has their bytes at the tail of the command channel (R70). -/
theorem runSteps_put (bs : List Byte) (acts : List HostAct) (k : Nat) (s : State) :
    runSteps (bs.length + k) { s with hostActs := bs.map HostAct.put ++ acts } =
      runSteps k { s with rx := s.rx ++ bs, hostActs := acts } := by
  induction bs generalizing s with
  | nil => simp
  | cons b bs ih =>
    rw [List.length_cons, Nat.add_right_comm, runSteps_succ]
    simpa [step, hostAct] using ih { s with rx := s.rx ++ [b] }

/-- A run that starts with a take for every byte of the response has taken the whole response (R282). -/
theorem runSteps_take (resp : List Byte) (acts : List HostAct) (k : Nat) (s : State) (h : s.resp = resp) :
    runSteps (resp.length + k) { s with hostActs := List.replicate resp.length HostAct.take ++ acts } =
      runSteps k { takeResponse s with hostActs := acts } := by
  subst h
  generalize hr : s.resp = resp
  induction resp generalizing s with
  | nil => simp [takeResponse, hr]
  | cons b rest ih =>
    rw [List.length_cons, Nat.add_right_comm, runSteps_succ]
    simpa [step, hostAct, hr, takeResponse, List.replicate_succ] using
      ih { s with resp := rest, taken := s.taken ++ [b] } rfl

end Sys2Proof.Machine
end

