-- ==== Sys2Proof/Machine/Assembler.lean ====
section
/-!
DEFINITION. The assembler syntax of the spec (30_encoding.md rules R82 and R83): one command a line, a semicolon
begins a comment, hex digits in either case. The two pseudo-commands have no encoding of their own.
-/

namespace Sys2Proof.Machine

/-- One line of a command sequence (R82, R83). -/
inductive AsmLine where
  /-- A line with no command: blank, or a comment. -/
  | empty
  /-- A command. -/
  | command (i : Instr)
  /-- `.raw`: the bytes as given. -/
  | raw (bytes : List Byte)
  /-- The pseudo-command DRAIN. -/
  | drain
  /-- The pseudo-command FEED. -/
  | feed (d : List Byte)
  deriving DecidableEq, Repr

/-- The value of a hex digit, in either case (R82). -/
def hexDigit (c : Char) : Option Nat :=
  if 48 ≤ c.toNat ∧ c.toNat ≤ 57 then some (c.toNat - 48)
  else if 65 ≤ c.toNat ∧ c.toNat ≤ 70 then some (c.toNat - 55)
  else if 97 ≤ c.toNat ∧ c.toNat ≤ 102 then some (c.toNat - 87)
  else none

/-- The bytes of a string of `2n` hex digits (R82). -/
def hexBytes : List Char → Option (List Byte)
  | [] => some []
  | [_] => none
  | a :: b :: rest =>
    match hexDigit a, hexDigit b, hexBytes rest with
    | some x, some y, some bytes => some (BitVec.ofNat 8 (x * 16 + y) :: bytes)
    | _, _, _ => none

/-- The operand `x"<hex>"`; 34 is the code of the double quote (R82). -/
def quotedHex : List Char → Option (List Byte)
  | 'x' :: q :: rest =>
    if q.toNat = 34 ∧ (rest.getLast?.map Char.toNat) = some 34 then hexBytes rest.dropLast else none
  | _ => none

/-- Whether a character separates the words of a line. -/
def isBlank (c : Char) : Bool := c.toNat = 32 || c.toNat = 9

/-- A line without its comment and without the blanks around it (R82; assumption log 19). -/
def trimLine (line : List Char) : List Char :=
  (((line.takeWhile (fun c => c.toNat ≠ 59)).dropWhile isBlank).reverse.dropWhile isBlank).reverse

/-- A command with an operand; APPEND and FEED carry at most 65535 bytes (R71, R82). -/
def parseOperand (mnemonic : List Char) (operand : List Byte) : Option AsmLine :=
  if mnemonic = ".raw".toList then some (.raw operand)
  else if 65536 ≤ operand.length then none
  else if mnemonic = "APPEND".toList then some (.command (.append operand))
  else if mnemonic = "FEED".toList then some (.feed operand)
  else none

/-- A mnemonic without operand (R82, R83). -/
def parseBare (mnemonic : List Char) : Option AsmLine :=
  if mnemonic = [] then some .empty
  else if mnemonic = "RESET".toList then some (.command .reset)
  else if mnemonic = "ATTEMPT".toList then some (.command .attempt)
  else if mnemonic = "STATUS".toList then some (.command .status)
  else if mnemonic = "END".toList then some (.command .endStream)
  else if mnemonic = "DRAIN".toList then some .drain
  else none

/-- One line (R82, R83); `none` if it is not of the syntax. -/
def parseLine (line : List Char) : Option AsmLine :=
  let body := trimLine line
  let mnemonic := body.takeWhile (fun c => !isBlank c)
  let operand := (body.drop mnemonic.length).dropWhile isBlank
  if operand = [] then parseBare mnemonic
  else (quotedHex operand).bind (parseOperand mnemonic)

/-- The channel bytes of a line; `none` for the pseudo-commands, whose expansion depends on the responses (R83). -/
def AsmLine.bytes : AsmLine → Option (List Byte)
  | .empty => some []
  | .command i => some (encode i)
  | .raw bytes => some bytes
  | .drain => none
  | .feed _ => none

/-- The channel bytes of one line of text (R82). -/
def assembleLine (line : List Char) : Option (List Byte) := (parseLine line).bind AsmLine.bytes

/-- The channel bytes of a list of lines, in order (R70, R82). -/
def assemble : List (List Char) → Option (List Byte)
  | [] => some []
  | l :: ls =>
    match assembleLine l, assemble ls with
    | some bytes, some rest => some (bytes ++ rest)
    | _, _ => none

end Sys2Proof.Machine
end

