-- ==== Sys2Proof/Tests/Slice0.lean ====
section
/-!
SUPPORT. Tests against the spec's own vectors (95_test_vectors.md, named at each test) and its rules' examples, the
smoke tests of WellFormed and Decode, and for every statement with hypotheses a state that meets them together.
-/

namespace Sys2Proof.Tests

open Sys2Proof Sys2Proof.Machine

/- One theorem at a time: with many kernel evaluations in flight at once, Lean runs out of threads. -/
set_option Elab.async false

/-! ## The configurations of the tests -/

/-- Bytes written in hex. -/
def hx (s : String) : List Byte := (hexBytes s.toList).getD []

/-- The test configuration TC1 of 95_test_vectors.md §1, under either trim policy. -/
def tc1 (policy : TrimPolicy) : Config :=
  { defaultConfig (bitsOf (hx "B35A1CE947"))
      (bitsOf (hx "3C87D21D68B3FE4994DF2A75C00B56A1EC3782CD1863AEF9448FDA")) 32 512 with trimPolicy := policy }

/-- A small configuration for witnesses: frames of 24 bits, a 4-bit sync word, one covered byte, the CRC after it, and
two overlapping fields of either bit order. -/
def tiny (policy : TrimPolicy) : Config :=
  { frameBits := 24
    syncW := 4
    syncWord := [true, false, true, true]
    whitenMask := bitsOf (hx "0F00FF")
    crcInit := 0xB5D2#16
    crcPoly := 0x1021#16
    crcXorout := 0x61B1#16
    crcCoverBytes := 1
    crcFieldOffset := 8
    fieldTable := [⟨"a", 0, 8, .msbFirst⟩, ⟨"b", 4, 4, .lsbFirst⟩]
    chunkMaxBytes := 4
    bufCapBits := 56
    trimPolicy := policy }

/-- The block right after power-on, with these bits in its buffer. -/
def holding (c : Config) (bits : List Bit) : State := { State.powerOn c with buf := bits }

/-- The response bytes of a result. -/
def answer : Result → Option (List Byte)
  | .next t => some t.resp
  | _ => none

/-- `L`, `POS_HEAD` and the three counters of a result. -/
def counts : Result → Option (Nat × Nat × Nat × Nat × Nat)
  | .next t => some (t.buf.length, t.posHead, t.cntNoSync.toNat, t.cntCrcErr.toNat, t.cntPkt.toNat)
  | _ => none

/-- The next state of a result. -/
def after : Result → Option State
  | .next t => some t
  | _ => none

theorem test_hx : hx "A5f0" = [0xA5#8, 0xF0#8] := by decide +kernel

/-- 95_test_vectors.md §1: `wf(TC1)` is true. -/
theorem test_tc1_wf : configWf (tc1 .retainF) = true ∧ configWf (tc1 .retainFMinus1) = true := by decide +kernel

theorem test_tiny_wf : configWf (tiny .retainF) = true ∧ configWf (tiny .retainFMinus1) = true := by decide +kernel

/-- R231: the reference configuration passes the check whatever its free bits are. -/
theorem test_reference_wf : configWf referenceConfig = true := by decide +kernel

/-! ## WellFormed and Decode -/

theorem test_wellFormed_accepts : ([.reset, .attempt, .status, .endStream, .append [], .append (hx "01020304")] :
    List Instr).all (Instr.wellFormed 4) = true := by decide +kernel

/-- R74, condition 4: a payload one byte above `CHUNK_MAX_BYTES`. -/
theorem test_wellFormed_refuses_long_chunk :
    (Instr.append (hx "0102030405")).chunkFits 4 = false ∧ (Instr.append (hx "0102030405")).wellFormed 4 = false := by
  decide +kernel

/-- R71: a payload count that does not fit the 16 bits of `LEN`. -/
theorem test_wellFormed_refuses_long_payload (cm : Nat) :
    (Instr.append (List.replicate 65536 0#8)).lenFits = false ∧
      (Instr.append (List.replicate 65536 0#8)).wellFormed cm = false := by
  have h : (List.replicate 65536 (0#8 : Byte)).length = 65536 := List.length_replicate
  generalize List.replicate 65536 (0#8 : Byte) = d at h ⊢
  simp [Instr.wellFormed, Instr.lenFits, h]

/-- R71: OPC is bits 31:24, RSVD 23:16, LEN 15:0. -/
theorem test_header_word : (⟨0x02#8, 0x00#8, 0x01#8, 0x20#8⟩ : Header).toWord = 0x02000120#32 ∧
    headerOfWord 0x02000120#32 = ⟨0x02#8, 0x00#8, 0x01#8, 0x20#8⟩ ∧ (headerOfWord 0x02000120#32).len = 288 := by
  decide +kernel

/-- R73: the words of the opcode map, as spec/opcode_table.json numbers their bits. -/
theorem test_table_words : decodeTableWord 32 0x01000000 = some .reset ∧
    decodeTableWord 32 0x02000000 = some (.append []) ∧ decodeTableWord 32 0x02000002 = some (.append [0x00#8, 0x00#8]) ∧
    decodeTableWord 32 0x03000000 = some .attempt ∧ decodeTableWord 32 0x04000000 = some .status ∧
    decodeTableWord 32 0x05000000 = some .endStream ∧ decodeTableWord 32 0x00000000 = none ∧
    decodeTableWord 32 0x06000000 = none := by decide +kernel

/-- R73, R76, R82: each command's bytes, and what they decode to. -/
theorem test_decode_reset : decode 32 [0x01#8, 0x00#8, 0x00#8, 0x00#8] = some (.command .reset, []) := by
  decide +kernel
theorem test_decode_append : decode 32 [0x02#8, 0x00#8, 0x00#8, 0x02#8, 0xA5#8, 0xF0#8, 0x03#8] =
    some (.command (.append [0xA5#8, 0xF0#8]), [0x03#8]) := by decide +kernel
theorem test_decode_attempt : decode 32 [0x03#8, 0x00#8, 0x00#8, 0x00#8] = some (.command .attempt, []) := by
  decide +kernel
theorem test_decode_status : decode 32 [0x04#8, 0x00#8, 0x00#8, 0x00#8] = some (.command .status, []) := by
  decide +kernel
theorem test_decode_end : decode 32 [0x05#8, 0x00#8, 0x00#8, 0x00#8] = some (.command .endStream, []) := by
  decide +kernel

/-- 95_test_vectors.md ENC-1 to ENC-3, ENC-6: the illegal headers, by the condition of R74 that they fail. -/
theorem test_decode_illegal : decode 32 (hx "00000000") = some (.illegal .unknownOpcode ⟨0x00#8, 0x00#8, 0x00#8, 0x00#8⟩, []) ∧
    decode 32 (hx "03010000") = some (.illegal .reservedNotZero ⟨0x03#8, 0x01#8, 0x00#8, 0x00#8⟩, []) ∧
    decode 32 (hx "03000001FF") = some (.illegal .payloadNotAllowed ⟨0x03#8, 0x00#8, 0x00#8, 0x01#8⟩, []) ∧
    decode 1 (hx "020000020102") = some (.illegal .chunkTooLong ⟨0x02#8, 0x00#8, 0x00#8, 0x02#8⟩, []) ∧
    decode 32 (hx "FFFF00020102") = some (.illegal .reservedNotZero ⟨0xFF#8, 0xFF#8, 0x00#8, 0x02#8⟩, []) := by
  decide +kernel

/-- R72, R284: a RESET header sent after a truncated APPEND is taken as its payload. -/
theorem test_truncated_command : decode 32 (hx "02000005A5") = none ∧
    decode 32 (hx "02000005A501000000") = some (.command (.append (hx "A501000000")), []) := by decide +kernel

/-- R82: the assembler's examples, a comment, and an illegal header written raw. -/
theorem test_assemble : assemble ["RESET ; start".toList, "APPEND x\"A5f0\"".toList, "append".toList] = none ∧
    assemble ["RESET ; start".toList, "APPEND x\"A5f0\"".toList, "APPEND x\"\"".toList, ".raw x\"03010000\"".toList,
      "ATTEMPT".toList, "STATUS".toList, "END".toList, "; done".toList] =
    some (hx "0100000002000002A5F00200000003010000030000000400000005000000") ∧
    parseLine "DRAIN".toList = some .drain ∧ parseLine "FEED x\"01\"".toList = some (.feed [0x01#8]) := by
  decide +kernel

/-! ## The step -/

/-- R18: the word of each row, placed where the step takes its next command from, runs right after reset. -/
theorem test_step_reset : answer (step (State.reset.withFetchWord 32 0x01000000)) = some (hx "00000000") := by
  decide +kernel
theorem test_step_append : answer (step (State.reset.withFetchWord 32 0x02000002)) = some (hx "00000000") := by
  decide +kernel
theorem test_step_attempt : answer (step (State.reset.withFetchWord 32 0x03000000)) = some (hx "10000000") := by
  decide +kernel
theorem test_step_status : answer (step (State.reset.withFetchWord 32 0x04000000)) =
    some (hx "13000018000000010000000000000000000000000000000000000000") := by decide +kernel
theorem test_step_end : answer (step (State.reset.withFetchWord 32 0x05000000)) = some (hx "00000000") := by
  decide +kernel

/-- 95_test_vectors.md ENC-3, R75: an illegal command is echoed and its payload thrown away. -/
theorem test_step_illegal : after (step { State.powerOn (tc1 .retainF) with rx := hx "03000001FF04" }) =
    some { State.powerOn (tc1 .retainF) with rx := hx "04", resp := hx "2000000403000001" } := by decide +kernel

/-- R280: a power-on reset drops a truncated command and the record. -/
theorem test_step_powerOn :
    after (step { holding (tc1 .retainF) [true] with
      posHead := 9, ended := true, rx := hx "0200", hostActs := [.powerOn] }) =
    some (State.powerOn (tc1 .retainF)) := by decide +kernel

/-! ## The meanings -/

/-- 95_test_vectors.md CTL-4, the example of R230. -/
theorem test_reset : after (execReset { holding (tc1 .retainF) (List.replicate 100 true) with
      ended := true, cntPkt := 7#32 }) =
    some { State.powerOn (tc1 .retainF) with resp := hx "00000000" } := by decide +kernel

/-- APP-1, the example of R100. -/
theorem test_append : after (execAppend (hx "A5") (holding (tc1 .retainF) [true, false, true])) =
    some { holding (tc1 .retainF) [true, false, true, true, false, true, false, false, true, false, true] with
      resp := hx "00000000" } := by decide +kernel

/-- APP-4 and APP-5: exactly full fits, and one byte more does not. -/
theorem test_append_full :
    counts (execAppend (hx "C28AD403") (holding (tc1 .retainF) (List.replicate 480 false))) = some (512, 0, 0, 0, 0) ∧
    answer (execAppend (hx "94") (holding (tc1 .retainF) (List.replicate 512 false))) = some (hx "21000000") ∧
    answer (execAppend [] (holding (tc1 .retainF) (List.replicate 512 false))) = some (hx "00000000") := by
  decide +kernel

/-- PROG-1 line 3 (DEC-1): frame P is found and decodes to the values it was built from. -/
theorem test_attempt_packet :
    (fun r => (answer r, counts r)) (execAttempt (holding (tc1 .retainF)
      (bitsOf (hx "B35A1CE947B0EC7DC2A7E08B7AB55782A9500B66D58CF45C8493DA00")))) =
    (some (hx ("1200002C000000000000000312345678CAFEBABE00000123" ++ "00004567000089AB0000CDEF0000005A000000A50000C01C")),
     some (8, 216, 0, 0, 1)) := by decide +kernel

/-- ATT-5: a flip in the covered range is a CRC mismatch, and the frame is consumed. -/
theorem test_attempt_mismatch :
    (fun r => (answer r, counts r)) (execAttempt (holding (tc1 .retainF)
      (bitsOf (hx "B35A1CE947B3FE4994DF2A75C80B56A1EC3782CD1863AEF97713DA00")))) =
    (some (hx "11000008000000002834339C"), some (8, 216, 0, 1, 0)) := by decide +kernel

/-- CTL-4, the example of R232. -/
theorem test_status : answer (execStatus { holding (tc1 .retainF) (List.replicate 216 false) with
    posHead := 84, cntNoSync := 1#32 }) = some (hx "1300001800000001000000D800000054000000010000000000000000") := by
  decide +kernel

/-- CTL-5: the position is reported modulo 2^32, and a hit's start with it. -/
theorem test_positions_wrap : answer (execStatus { State.powerOn (tc1 .retainF) with posHead := 2 ^ 32 + 5 }) =
    some (hx "13000018000000010000000000000005000000000000000000000000") ∧
    startWord { State.powerOn (tc1 .retainF) with posHead := 2 ^ 32 + 5 } 3 = 8#32 := by decide +kernel

/-- CTL-4, the example of R233. -/
theorem test_end : after (execEndStream { holding (tc1 .retainF) (List.replicate 150 true) with posHead := 1000 }) =
    some { State.powerOn (tc1 .retainF) with posHead := 1150, ended := true, resp := hx "00000000" } := by
  decide +kernel

/-! ## Primitives, pipeline and configuration check -/

/-- FIND-1 to FIND-7. -/
theorem test_find :
    let buf := [false, true, false, true, false, true, true]
    let pat := [false, true, false, true]
    find pat buf 0 7 = some 0 ∧ find pat buf 1 7 = some 2 ∧ find pat buf 3 7 = none ∧ find pat buf 2 3 = some 2 ∧
    find pat buf 4 4 = none ∧ find pat [false, true, false] 0 3 = none ∧
    find [true, false] [false, true, false, true, false] 0 5 = some 1 ∧ shiftFind pat buf 1 7 = some 2 := by
  decide +kernel

/-- SL-1 to SL-3, ADV-1, ADV-3 and ADV-4. -/
theorem test_slice_advance :
    let buf := [true, true, false, false, true]
    slice buf 1 3 = some [true, false, false] ∧ slice buf 2 3 = some [false, false, true] ∧ slice buf 3 3 = none ∧
    (advance 2 { holding (tiny .retainF) buf with posHead := 10 }) =
      some { holding (tiny .retainF) [false, false, true] with posHead := 12 } ∧
    (advance 5 { holding (tiny .retainF) buf with posHead := 10 }) =
      some { State.powerOn (tiny .retainF) with posHead := 15 } ∧
    advance 6 (holding (tiny .retainF) buf) = none := by decide +kernel

/-- ATT-1 to ATT-4: the window's end below, at and above the frame length, under both policies. -/
theorem test_searchLimit : [0, 216, 217, 224, 296].map (searchLimit (tc1 .retainF)) = [0, 0, 1, 8, 80] ∧
    [0, 215, 216, 224, 296].map (searchLimit (tc1 .retainFMinus1)) = [0, 0, 1, 9, 81] := by decide +kernel

/-- DW-2: frame Z as sent is dewhitened to its cleartext. -/
theorem test_dewhiten :
    dewhiten (tc1 .retainF) (bitsOf (hx "B35A1CE947B3FE4994DF2A75C00B56A1EC3782CD1863AEF97713DA")) =
    .ok (bitsOf (hx "8FDDCEF42F00000000000000000000000000000000000000339C00")) := by decide +kernel

/-- CRC-1, CRC-2, CRC-7, CRC-9, CRC-10; and the first rounds of CRC-4. -/
theorem test_crc : crc16 (tc1 .retainF) (List.replicate 24 0x00#8) = 0xC0B8#16 ∧
    crc16 (tc1 .retainF) (List.replicate 24 0xFF#8) = 0x03D4#16 ∧
    crc16 (tc1 .retainF) (hx "8FDDCEF42F0312345678CAFEBABE0123456789ABCDEF5AA5") = 0xC01C#16 ∧
    crc16 (tc1 .retainF) (hx "313233343536373839") = 0xD54D#16 ∧ crc16 (tc1 .retainF) [] = 0xD463#16 ∧
    crcRound 0x1021#16 0xB5D2#16 = 0x7B85#16 ∧ crcRounds 0x1021#16 8 0xB5D2#16 = 0x257E#16 := by decide +kernel

/-- DEC-4: unaligned and overlapping entries of either bit order. -/
theorem test_fields :
    readFields (bitsOf (hx "8FDDCEF42F0312345678CAFEBABE0123456789ABCDEF5AA5C01C00"))
      [⟨"a", 41, 7, .msbFirst⟩, ⟨"b", 41, 7, .lsbFirst⟩, ⟨"c", 0, 1, .msbFirst⟩, ⟨"d", 200, 13, .msbFirst⟩,
       ⟨"e", 44, 32, .lsbFirst⟩] = .ok [0x03#32, 0x60#32, 0x1#32, 0x380#32, 0xE6A2C48C#32] := by decide +kernel

/-- CTL-2 and the list after it: the configurations that fail R231. -/
theorem test_malformed :
    let c := tc1 .retainF
    ([{ c with fieldTable := [⟨"crc", 192, 33, .msbFirst⟩], frameBits := 225, whitenMask := List.replicate 225 true },
      { c with syncW := 0, syncWord := [] }, { c with whitenMask := List.replicate 215 true },
      { c with crcCoverBytes := 28 }, { c with crcFieldOffset := 201 }, { c with fieldTable := [⟨"a", 210, 8, .msbFirst⟩] },
      { c with fieldTable := [⟨"mode", 0, 8, .msbFirst⟩, ⟨"mode", 8, 8, .msbFirst⟩] }, { c with fieldTable := [] },
      { c with fieldTable := (List.range 17).map fun k => ⟨String.ofList (List.replicate k 'a'), 0, 8, .msbFirst⟩ },
      { c with chunkMaxBytes := 0 }, { c with bufCapBits := 471 }] : List Config).any configWf = false ∧
    configWf { c with bufCapBits := 472 } = true := by decide +kernel

/-! ## A state and operands that meet the hypotheses of each statement

`tiny` frames: byte 0 `B5` begins with the sync word and dewhitens to `BA`, whose CRC is 0x425E; `42 A1` is that CRC
whitened, `00 00` is not. -/

/-- A frame whose CRC validates, and the one bit behind it that RETAIN_F waits for. -/
def goodBits : List Bit := bitsOf (hx "B542A1") ++ [false]

/-- A frame whose CRC does not validate, and one bit behind it. -/
def badBits : List Bit := bitsOf (hx "B50000") ++ [false]

/-- No sync word at any offset. -/
def noiseBits : List Bit := List.replicate 27 false

/-- Bits under a configuration that passes the check meet the invariant. -/
theorem holding_inv {c : Config} {bits : List Bit} (hc : configWf c = true) (hl : bits.length ≤ c.bufCapBits) :
    (holding c bits).Inv :=
  ⟨rfl, memory_wf_iff.mpr hl, fun h => (Bool.false_ne_true h).elim,
    fun h => (Bool.false_ne_true (h.symm.trans hc)).elim⟩

theorem good_inv (p : TrimPolicy) : (holding (tiny p) goodBits).Inv := by
  cases p <;> exact holding_inv (by decide +kernel) (by decide +kernel)

theorem bad_inv (p : TrimPolicy) : (holding (tiny p) badBits).Inv := by
  cases p <;> exact holding_inv (by decide +kernel) (by decide +kernel)

theorem noise_inv (p : TrimPolicy) : (holding (tiny p) noiseBits).Inv := by
  cases p <;> exact holding_inv (by decide +kernel) (by decide +kernel)

theorem powerOn_inv (c : Config) : (State.powerOn c).Inv := ⟨rfl, rfl, fun _ => rfl, fun _ => ⟨rfl, rfl, rfl, rfl, rfl, rfl⟩⟩

/-- A block whose configuration fails the check. -/
def malformed : State := State.powerOn { tiny .retainF with syncW := 0 }

/-- A block after END. -/
def ended : State := { State.powerOn (tiny .retainF) with ended := true, posHead := 8 }

theorem ended_inv : ended.Inv :=
  ⟨rfl, rfl, fun _ => rfl, fun h => (Bool.false_ne_true (h.symm.trans (by decide +kernel))).elim⟩

theorem witness_DecodeOfEncode :
    [Instr.reset, .append [], .append (hx "01020304"), .attempt, .status, .endStream].all (Instr.wellFormed 4) = true := by
  decide +kernel

theorem witness_EncodeOfDecode : decode 4 (hx "020000040102030403") =
    some (.command (.append (hx "01020304")), hx "03") := by decide +kernel

theorem witness_LegalHeaders : classify 4 ⟨0x05#8, 0x00#8, 0x00#8, 0x00#8⟩ [] = .command .endStream ∧
    classify 4 ⟨0x02#8, 0x00#8, 0x00#8, 0x04#8⟩ (hx "01020304") = .command (.append (hx "01020304")) ∧
    classify 4 ⟨0x02#8, 0x00#8, 0x00#8, 0x05#8⟩ (hx "0102030405") =
      .illegal .chunkTooLong ⟨0x02#8, 0x00#8, 0x00#8, 0x05#8⟩ := by decide +kernel

theorem witness_CommandOccupiesItsBytes : (hx "0102").length = (0x00#8 : Byte).toNat * 256 + (0x02#8 : Byte).toNat ∧
    receive (hx "FFFF0002010203") = some (⟨0xFF#8, 0xFF#8, 0x00#8, 0x02#8⟩, hx "0102", hx "03") ∧
    receive (hx "FFFF00") = none ∧ receive (hx "FFFF000201") = none := by decide +kernel

theorem witness_StreamIsCutIntoCommands :
    (∀ c ∈ [((⟨0x02#8, 0x00#8, 0x00#8, 0x01#8⟩ : Header), hx "A5"), (⟨0x06#8, 0x00#8, 0x00#8, 0x02#8⟩, hx "0102")],
      c.2.length = c.1.h2.toNat * 256 + c.1.h3.toNat) ∧ receive (hx "0300") = none := by decide +kernel

/-- A block with the bytes of one command in its receiver. -/
def received (bytes : List Byte) (acts : List HostAct) : State :=
  { State.powerOn (tiny .retainF) with rx := bytes, hostActs := acts }

theorem witness_StepRunsTheDecodedCommand :
    (received (hx "0200000299AA04") []).resp = [] ∧ (received (hx "0200000299AA04") []).hostActs = [] ∧
    decode (tiny .retainF).chunkMaxBytes (received (hx "0200000299AA04") []).rx =
      some (.command (.append (hx "99AA")), hx "04") ∧
    (received (hx "05000000") [.wait, .take]).resp = [] ∧
    (received (hx "05000000") [.wait, .take]).hostActs = .wait :: [.take] ∧
    decode (tiny .retainF).chunkMaxBytes (received (hx "05000000") [.wait, .take]).rx =
      some (.command .endStream, []) := by decide +kernel

/-- One header for each condition of R74 that can fail, with its payload. -/
theorem witness_IllegalCommandIsEchoed :
    ∀ h ∈ [(⟨0x03#8, 0x01#8, 0x00#8, 0x00#8⟩ : Header), ⟨0x00#8, 0x00#8, 0x00#8, 0x00#8⟩, ⟨0x06#8, 0x00#8, 0x00#8, 0x00#8⟩,
      ⟨0x03#8, 0x00#8, 0x00#8, 0x01#8⟩, ⟨0x02#8, 0x00#8, 0x00#8, 0x05#8⟩],
      let payload := (hx "0102030405").take h.len
      let s := received ([h.h0, h.h1, h.h2, h.h3] ++ payload ++ hx "04") []
      s.hostActs = [] ∧ s.resp = [] ∧ payload.length = h.h2.toNat * 256 + h.h3.toNat ∧
      ¬ (h.h1 = 0x00#8 ∧ (0x01#8 ≤ h.h0 ∧ h.h0 ≤ 0x05#8) ∧
        (h.h0 ≠ 0x02#8 → h.h2.toNat * 256 + h.h3.toNat = 0) ∧
        (h.h0 = 0x02#8 → h.h2.toNat * 256 + h.h3.toNat ≤ s.cfg.chunkMaxBytes)) := by decide +kernel

theorem witness_BlockHoldsForever : (received (hx "020000") []).hostActs = [] ∧ receive (received (hx "020000") []).rx = none ∧
    { received (hx "03000000") [] with resp := hx "00" }.hostActs = [] ∧
    { received (hx "03000000") [] with resp := hx "00" }.resp ≠ [] := by decide +kernel

theorem witness_CommandSentByteByByteRuns : (received [] []).rx = [] ∧ (received [] []).resp = [] ∧
    (Instr.append (hx "01020304")).wellFormed (received [] []).cfg.chunkMaxBytes = true ∧
    Instr.attempt.wellFormed (received [] []).cfg.chunkMaxBytes = true := by decide +kernel

theorem witness_PowerOnResets : { ended with rx := hx "0200", hostActs := [.powerOn, .take] }.hostActs = .powerOn :: [.take] := by
  decide +kernel

theorem witness_HostTouchesOnlyTheChannels :
    (received (hx "02") [.put 0x00#8]).hostActs = .put 0x00#8 :: [] ∧
    (after (step (received (hx "02") [.put 0x00#8]))).map State.rx = some (hx "0200") ∧
    (received [] [.take, .wait]).hostActs = .take :: [.wait] ∧ (received [] [.take, .wait]).resp = [] ∧
    { received [] [.take] with resp := hx "1000" }.resp = 0x10#8 :: [0x00#8] ∧
    (after (step { received [] [.take] with resp := hx "1000" })).map (fun t => (t.resp, t.taken)) =
      some (hx "00", hx "10") := by
  decide +kernel

theorem witness_ResponsesOnlyGrow : (after (step { received (hx "05000000") [] with taken := hx "00" })).map
    (fun t => (t.taken, t.resp)) = some (hx "00", hx "00000000") ∧
    (after (step { received [] [.powerOn] with taken := hx "00", resp := hx "10" })).map
      (fun t => (t.taken, t.resp)) = some (hx "00", hx "10") := by decide +kernel

theorem witness_OneListedResponsePerCommand : (holding (tiny .retainF) goodBits).Inv ∧
    answer (exec .reset (holding (tiny .retainF) goodBits)) = some (hx "00000000") ∧
    answer (exec (.append [0x01#8]) (holding (tiny .retainF) goodBits)) = some (hx "00000000") ∧
    answer (exec .attempt (holding (tiny .retainF) goodBits)) = some (hx "1200000C00000000000000BA00000005") ∧
    (answer (exec .status (holding (tiny .retainF) goodBits))).isSome ∧
    answer (exec .endStream (holding (tiny .retainF) goodBits)) = some (hx "00000000") :=
  ⟨good_inv _, by decide +kernel⟩

theorem witness_ResponseBytes : (List.replicate 16 0x01020304#32).length ≤ 16 ∧ (List.replicate 6 0#32).length = 6 ∧
    (Response.packet 7#32 (List.replicate 16 0#32)).encode.take 8 = hx "1200004400000007" := by decide +kernel

theorem witness_StepKeepsTheRecordLegal : (holding (tiny .retainF) goodBits).Inv ∧
    (after (step { holding (tiny .retainF) goodBits with rx := hx "03000000" })).map State.posHead = some 24 :=
  ⟨good_inv _, by decide +kernel⟩

theorem witness_StepNeverStops : (holding (tiny .retainFMinus1) badBits).Inv ∧ ended.Inv ∧ malformed.Inv :=
  ⟨bad_inv _, ended_inv, powerOn_inv _⟩

theorem witness_ConfigurationIsFixed : (after (step (received (hx "01000000") []))).map State.cfg = some (tiny .retainF) ∧
    (received (hx "01000000") []).cfgOk = configWf (received (hx "01000000") []).cfg := by decide +kernel

theorem witness_ConfigurationCheck : ((hx "B35A1CE947").length * 8 = 40) ∧ (List.replicate 216 true).length = 216 ∧
    configWf (defaultConfig (List.replicate 40 true) (List.replicate 216 true) 65535 (2 ^ 32 - 1)) = true ∧
    configWf (defaultConfig (List.replicate 40 true) (List.replicate 216 true) 1 224) = true := by decide +kernel

theorem witness_EndedSetAndClearedOnlyBy :
    (received (hx "05000000") []).ended = false ∧
    (after (step (received (hx "05000000") []))).map State.ended = some true ∧ ended.ended = true ∧
    (after (step { ended with rx := hx "01000000" })).map State.ended = some false ∧
    (after (step { ended with hostActs := [.powerOn] })).map State.ended = some false := by decide +kernel

theorem witness_CursorAndTail :
    (after (exec .reset ended)).map (fun t => (t.posHead, posTail t)) = some (0, 0) ∧
    (after (exec (.append [0x01#8]) (holding (tiny .retainF) goodBits))).map (fun t => (t.posHead, posTail t)) = some (0, 33) ∧
    answer (exec (.append [0x01#8]) (holding (tiny .retainF) goodBits)) = some [0x00#8, 0x00#8, 0x00#8, 0x00#8] ∧
    answer (exec (.append (hx "01020304")) (holding (tiny .retainF) goodBits)) = some (hx "21000000") ∧
    (after (exec .attempt (holding (tiny .retainF) goodBits))).map (fun t => (t.posHead, posTail t)) = some (24, 25) ∧
    (after (exec .endStream (holding (tiny .retainF) goodBits))).map (fun t => (t.posHead, posTail t)) = some (25, 25) := by
  decide +kernel

theorem witness_RaisedErrorsChangeNothing :
    answer (runDecoded (.illegal .unknownOpcode ⟨0x06#8, 0x00#8, 0x00#8, 0x00#8⟩) ended) = some (hx "2000000406000000") ∧
    answer (runDecoded (.command (.append (hx "01020304"))) (holding (tiny .retainF) goodBits)) = some (hx "21000000") ∧
    answer (runDecoded (.command .attempt) ended) = some (hx "22000000") ∧
    answer (runDecoded (.command .endStream) malformed) = some (hx "23000000") := by decide +kernel

/-- The largest payload that fits, with 25 bits in a buffer of 56, is 3 bytes. -/
theorem witness_ErrorPriority :
    answer (runDecoded (.command (.append (hx "010203"))) (holding (tiny .retainF) goodBits)) = some (hx "00000000") ∧
    answer (runDecoded (.command (.append (hx "01020304"))) { malformed with ended := true }) = some (hx "23000000") ∧
    answer (runDecoded (.command (.append (hx "0102030405060708"))) ended) = some (hx "22000000") ∧
    answer (runDecoded (.command .attempt) (holding (tiny .retainF) badBits)) = some (hx "1100000800000000425E00FF") ∧
    answer (runDecoded (.command .attempt) (holding (tiny .retainF) noiseBits)) = some (hx "10000000") := by
  decide +kernel

theorem witness_CountersCountAttempts :
    (holding (tiny .retainF) goodBits).cfgOk = true ∧ (holding (tiny .retainF) goodBits).ended = false ∧
    ended.ended = true ∧ malformed.cfgOk = false ∧
    [exec .attempt { holding (tiny .retainF) goodBits with cntPkt := 0xFFFFFFFF#32 },
     exec .attempt { holding (tiny .retainF) badBits with cntCrcErr := 0xFFFFFFFF#32 },
     exec .attempt { holding (tiny .retainF) noiseBits with cntNoSync := 0xFFFFFFFF#32 }, exec .attempt ended,
     exec .endStream { holding (tiny .retainF) goodBits with cntPkt := 5#32 },
     exec .reset { holding (tiny .retainF) goodBits with cntPkt := 5#32 }].map counts =
    [some (1, 24, 0, 0, 0), some (1, 24, 0, 0, 0), some (24, 3, 0, 0, 0), some (0, 8, 0, 0, 0),
     some (0, 25, 0, 0, 5), some (0, 0, 0, 0, 0)] := by decide +kernel

theorem witness_FlagsWordBits : flagsWord ended = 3#32 ∧ flagsWord malformed = 0#32 := by decide +kernel

theorem witness_StatusAndResetAreIdempotent : (Instr.status = .status ∨ Instr.status = .reset) ∧
    (Instr.reset = .status ∨ Instr.reset = .reset) := by decide +kernel

theorem witness_MalformedConfigurationRefuses : malformed.cfgOk = false ∧ Instr.attempt ≠ .reset ∧
    Instr.attempt ≠ .status ∧ Instr.append [] ≠ .reset ∧ Instr.append [] ≠ .status ∧ Instr.endStream ≠ .reset ∧
    Instr.endStream ≠ .status := by decide +kernel

theorem witness_EndedStreamRefuses : ended.cfgOk = true ∧ ended.ended = true := by decide +kernel

theorem witness_ChunkBoundariesLeaveNoTrace : [hx "B542", [], hx "A1"] ≠ [] ∧
    (appendAll [hx "B542", [], hx "A1"] (State.powerOn (tiny .retainF))).map State.buf = some (bitsOf (hx "B542A1")) := by
  decide +kernel

/-- Under RETAIN_F with 24 bits the window is empty; with 27 it ends at 3; under RETAIN_F_MINUS_1 with 27 at 4. -/
theorem witness_AttemptMissResult :
    (holding (tiny .retainF) noiseBits).Inv ∧ (holding (tiny .retainFMinus1) noiseBits).Inv ∧
    (holding (tiny .retainF) (bitsOf (hx "B542A1"))).Inv ∧
    (holding (tiny .retainF) noiseBits).cfgOk = true ∧ (holding (tiny .retainF) noiseBits).ended = false ∧
    3 = noiseBits.length - (tiny .retainF).frameBits ∧ 4 = noiseBits.length + 1 - (tiny .retainFMinus1).frameBits ∧
    0 = (bitsOf (hx "B542A1")).length - (tiny .retainF).frameBits ∧
    ∀ p < 4, (noiseBits.drop p).take (tiny .retainF).syncW ≠ (tiny .retainF).syncWord :=
  ⟨noise_inv _, noise_inv _, holding_inv (by decide +kernel) (by decide +kernel), by decide +kernel⟩

/-- The sync word is at the last offset of the window, under either policy. -/
theorem witness_AttemptCrcMismatchResult :
    (holding (tiny .retainF) badBits).Inv ∧ (holding (tiny .retainF) badBits).cfgOk = true ∧
    (holding (tiny .retainF) badBits).ended = false ∧
    1 = badBits.length - (tiny .retainF).frameBits ∧ 0 < 1 ∧
    (badBits.drop 0).take (tiny .retainF).syncW = (tiny .retainF).syncWord ∧
    (∀ q < 0, (badBits.drop q).take (tiny .retainF).syncW ≠ (tiny .retainF).syncWord) ∧
    bitsOf (hx "BA00FF") = List.zipWith xor ((badBits.drop 0).take (tiny .retainF).frameBits)
      ((tiny .retainF).whitenMask.take (tiny .retainF).frameBits) ∧
    0x425E#16 = crc16 (tiny .retainF) ((List.range (tiny .retainF).crcCoverBytes).map fun k =>
      BitVec.ofNat 8 (be (((bitsOf (hx "BA00FF")).drop (8 * k)).take 8))) ∧
    0x00FF#16 = BitVec.ofNat 16 (be (((bitsOf (hx "BA00FF")).drop (tiny .retainF).crcFieldOffset).take 16)) ∧
    (0x425E#16 : Half) ≠ 0x00FF#16 :=
  ⟨bad_inv _, by decide +kernel⟩

theorem witness_AttemptPacketResult :
    (holding (tiny .retainFMinus1) goodBits).Inv ∧ (holding (tiny .retainFMinus1) goodBits).cfgOk = true ∧
    (holding (tiny .retainFMinus1) goodBits).ended = false ∧
    2 = goodBits.length + 1 - (tiny .retainFMinus1).frameBits ∧ 0 < 2 ∧
    (goodBits.drop 0).take (tiny .retainFMinus1).syncW = (tiny .retainFMinus1).syncWord ∧
    (∀ q < 0, (goodBits.drop q).take (tiny .retainFMinus1).syncW ≠ (tiny .retainFMinus1).syncWord) ∧
    bitsOf (hx "BA425E") = List.zipWith xor ((goodBits.drop 0).take (tiny .retainFMinus1).frameBits)
      ((tiny .retainFMinus1).whitenMask.take (tiny .retainFMinus1).frameBits) ∧
    crc16 (tiny .retainFMinus1) ((List.range (tiny .retainFMinus1).crcCoverBytes).map fun k =>
      BitVec.ofNat 8 (be (((bitsOf (hx "BA425E")).drop (8 * k)).take 8))) =
      BitVec.ofNat 16 (be (((bitsOf (hx "BA425E")).drop (tiny .retainFMinus1).crcFieldOffset).take 16)) :=
  ⟨good_inv _, by decide +kernel⟩

/-- The second state has another cursor and other counters; its reported start differs, the packet does not. -/
theorem witness_AttemptDependsOnTheBufferAlone :
    let s₁ := holding (tiny .retainF) goodBits
    let s₂ := { s₁ with posHead := 2 ^ 32, cntCrcErr := 9#32 }
    s₁.cfgOk = true ∧ s₁.ended = false ∧ s₂.cfgOk = true ∧ s₂.ended = false ∧ s₁.cfg = s₂.cfg ∧ s₁.buf = s₂.buf ∧
    s₁.resp = [] ∧ s₂.resp = [] ∧ (after (exec .attempt s₁)).isSome ∧ (after (exec .attempt s₂)).isSome ∧
    s₁.posHead % 2 ^ 32 = s₂.posHead % 2 ^ 32 := by decide +kernel

theorem witness_AttemptsMakeProgress :
    (holding (tiny .retainF) badBits).Inv ∧ (holding (tiny .retainF) noiseBits).Inv ∧
    answer (exec .attempt (holding (tiny .retainF) badBits)) = some (hx "1100000800000000425E00FF") ∧
    answer (exec .attempt (holding (tiny .retainF) noiseBits)) = some (hx "10000000") ∧
    (holding (tiny .retainF) badBits).cfgOk = true ∧ (holding (tiny .retainF) noiseBits).ended = false :=
  ⟨bad_inv _, noise_inv _, by decide +kernel⟩

/-- A second sync word, at offset 20, lies inside the frame that the attempt extracts; a third, at 26, is kept. -/
theorem witness_NoSyncWordIsLost :
    let bits := bitsOf (hx "B5000B") ++ [false, false] ++ bitsOf (hx "B0")
    let s := holding (tiny .retainF) bits
    s.cfgOk = true ∧ s.ended = false ∧ (after (exec .attempt s)).map (fun t => t.buf.length) = some 10 ∧
    occursAt s.cfg.syncWord s.buf 20 = true ∧ 20 < s.buf.length - 10 ∧
    occursAt s.cfg.syncWord s.buf 26 = true ∧ s.buf.length - 10 ≤ 26 ∧ s.buf.length ≤ s.cfg.bufCapBits := by
  decide +kernel

theorem witness_HitNeedsTheWholeFrame : HitsAt (holding (tiny .retainF) goodBits) 0 ∧
    HitsAt (holding (tiny .retainFMinus1) (bitsOf (hx "B542A1"))) 0 := by
  unfold HitsAt
  decide +kernel

theorem witness_ShiftRegisterFindsTheSame : 1 ≤ ([true] : List Bit).length ∧
    shiftFind [true] [false, true] 0 2 = some 1 ∧ shiftFind [true] [false, true] 0 1 = none := by decide +kernel

theorem witness_DewhiteningIsAnInvolution : configWf (tiny .retainF) = true ∧
    (bitsOf (hx "B542A1")).length = (tiny .retainF).frameBits := by decide +kernel

theorem witness_CleartextSyncWord : configWf (holding (tiny .retainF) goodBits).cfg = true ∧
    HitsAt (holding (tiny .retainF) goodBits) 0 := by
  unfold HitsAt
  decide +kernel

theorem witness_CrcIsAffine : (hx "BA01").length = (hx "00FF").length := by decide +kernel

theorem witness_SingleBitChangesTheCrc : (tc1 .retainF).crcInit = 0xB5D2#16 ∧ (tc1 .retainF).crcPoly = 0x1021#16 ∧
    (tc1 .retainF).crcXorout = 0x61B1#16 ∧ (List.replicate 24 0xFF#8).length = 24 ∧ 0 < 192 ∧ 191 < 192 ∧
    crc16 (tc1 .retainF) ((List.replicate 24 0x00#8).modify (191 / 8) (fun b => b ^^^ BitVec.twoPow 8 (7 - 191 % 8))) =
      0xD099#16 := by decide +kernel

theorem witness_FieldValues : configWf (tiny .retainF) = true ∧
    (bitsOf (hx "BA425E")).length = (tiny .retainF).frameBits ∧
    decodeFields (tiny .retainF) (bitsOf (hx "BA425E")) = .ok [0xBA#32, 0x05#32] ∧
    (bitsOf (hx "BA42")).length ≠ (tiny .retainF).frameBits := by decide +kernel

theorem witness_PayloadBitsAndBytes : 1 < (hx "A5F0").length ∧ 7 < 8 ∧ (payloadBits (hx "A5F0"))[15]? = some false := by
  decide +kernel

theorem witness_TrailerIsIgnored :
    configWf (defaultConfig (bitsOf (hx "B35A1CE947")) (List.replicate 216 true) 32 512) = true ∧
    (List.replicate 216 true).length = 216 ∧ (List.replicate 208 true ++ List.replicate 8 false).length = 216 ∧
    (List.replicate 216 true).take 208 = (List.replicate 208 true ++ List.replicate 8 false).take 208 ∧
    List.replicate 216 true ≠ List.replicate 208 true ++ List.replicate 8 false := by decide +kernel

theorem witness_DrainEnds : (holding (tiny .retainF) (bitsOf (hx "B542A1B50000") ++ [false])).Inv ∧
    (holding (tiny .retainF) (bitsOf (hx "B542A1B50000") ++ [false])).cfgOk = true ∧
    (holding (tiny .retainF) (bitsOf (hx "B542A1B50000") ++ [false])).ended = false :=
  ⟨holding_inv (by decide +kernel) (by decide +kernel), by decide +kernel⟩

theorem witness_AppendFitsAfterDrain :
    let s := holding (tiny .retainF) (bitsOf (hx "B542A1B50000") ++ [false])
    s.Inv ∧ s.cfgOk = true ∧ s.ended = false ∧
    ((drain 3 s).bind after).map (fun t => (t.buf.length, t.posHead)) = some (1, 48) ∧
    (hx "01020304").length ≤ s.cfg.chunkMaxBytes :=
  ⟨holding_inv (by decide +kernel) (by decide +kernel), by decide +kernel⟩

theorem witness_ReferenceLoopAcceptsEverything : configWf (tiny .retainF) = true ∧
    (∀ d ∈ [hx "B542A1B5", hx "0000", []], d.length ≤ (tiny .retainF).chunkMaxBytes) ∧
    ((referenceLoop [hx "B542A1B5", hx "0000", []] (State.powerOn (tiny .retainF))).bind after).map
      (fun t => (t.posHead, t.cntPkt.toNat)) = some (48, 1) := by decide +kernel

theorem witness_OneAttemptPerChunkIsEnough :
    let s := holding (tiny .retainF) (bitsOf (hx "B542A1"))
    s.Inv ∧ s.cfgOk = true ∧ s.ended = false ∧ s.buf.length ≤ s.cfg.frameBits ∧
    8 * (hx "010203").length ≤ s.cfg.frameBits ∧ (hx "010203").length ≤ s.cfg.chunkMaxBytes :=
  ⟨holding_inv (by decide +kernel) (by decide +kernel), by decide +kernel⟩

/-- The commands of the witnesses for the statements about runs: two frames, with attempts in between. -/
def sampleRun : List Instr :=
  [.append (hx "B542"), .attempt, .append (hx "A1B500"), .attempt, .status, .append (hx "00FF"), .attempt]

theorem witness_FramesDoNotDependOnTheSchedule : configWf (tiny .retainF) = true ∧
    (∀ i ∈ sampleRun, i ≠ .reset ∧ i ≠ .endStream) ∧
    (runCommands sampleRun (State.powerOn (tiny .retainF))).map
      (fun r => (r.1.map Prod.snd).filter isHit) =
      some [hx "1200000C00000000000000BA00000005", hx "1100000800000018425E00FF"] := by decide +kernel

theorem witness_DrainedRunReportsEveryFrame : configWf (tiny .retainF) = true ∧
    (∀ i ∈ sampleRun, i ≠ .reset ∧ i ≠ .endStream) ∧
    (runCommands (sampleRun ++ [.attempt]) (State.powerOn (tiny .retainF))).map (fun r => r.1.getLast?) =
      some (some (.attempt, [0x10#8, 0x00#8, 0x00#8, 0x00#8])) := by decide +kernel

theorem witness_BitSequenceValues : 8 ∣ (bitsOf (hx "A5F0")).length ∧ 1 < (bytesOf (bitsOf (hx "A5F0"))).length ∧
    be [true, false, false] = 4 ∧ le [true, false, false] = 1 := by decide +kernel

/-- The host takes one byte left over, sends STATUS, and reads 28 bytes; or sends an APPEND of 5 bytes, one above
`CHUNK_MAX_BYTES`, and reads ILLEGAL_COMMAND. -/
theorem witness_IssueIsARunOfTheStep :
    { received [] [] with resp := hx "00" }.rx = [] ∧ { received [] [] with resp := hx "00" }.hostActs = [] ∧
    Instr.status.lenFits = true ∧ (Instr.append (hx "0102030405")).lenFits = true ∧
    (match issue .status { received [] [] with resp := hx "00" } with
      | .next (resp, t) => decide (resp.length = 28 ∧ t.taken = hx "00" ++ resp)
      | _ => false) = true ∧
    (match issue (.append (hx "0102030405")) (received [] []) with
      | .next (resp, t) => decide (resp = hx "2000000402000005" ∧ t.taken = resp ∧ t.buf = [])
      | _ => false) = true := by decide +kernel

/-- R83: a FEED of a chunk above `CHUNK_MAX_BYTES` adds nothing, and its DRAIN is one ATTEMPT; one of the largest legal
chunk adds its bits. -/
theorem test_feed :
    ((feed (hx "B542A1B500") (State.powerOn (tiny .retainF))).bind after).map
      (fun t => (t.buf.length, t.taken)) = some (0, hx "200000040200000510000000") ∧
    ((feed (hx "B542A1B5") (State.powerOn (tiny .retainF))).bind after).map
      (fun t => (t.buf.length, t.posHead, t.cntPkt.toNat)) = some (8, 24, 1) := by decide +kernel

/-- The frame starts of the run's stream. -/
theorem test_frameStarts : frameStarts (tiny .retainF).syncWord 24 (bitsOf (hx "B542A1B50000FF")) 57 0 = [0, 24] := by
  decide +kernel

end Sys2Proof.Tests
end

/-!
PROOFS, the scope family: the values of bit sequences and the bits of bytes (R16, R53), what the block's turn runs
(R18, R72), what a command answers and what a raised error leaves alone (R255), and the configuration, which no step
writes (R3, R25).
-/

namespace Sys2Proof.Machine

/-! ## Values of bit sequences -/

theorem be_append (s t : List Bit) : be (s ++ t) = be s * 2 ^ t.length + be t := by
  induction s with
  | nil => simp [be]
  | cons b s ih => simp only [List.cons_append, be, ih, List.length_append]; ring

theorem be_reverse (s : List Bit) : be s.reverse = le s := by
  induction s with
  | nil => rfl
  | cons b s ih => simp [be_append, be, le, ih]; omega

theorem be_eq_sum (s : List Bit) :
    be s = ∑ j ∈ Finset.range s.length, (s.getD j false).toNat * 2 ^ (s.length - 1 - j) := by
  induction s with
  | nil => rfl
  | cons b s ih =>
    have hexp (j : Nat) : s.length + 1 - 1 - (j + 1) = s.length - 1 - j := by omega
    simp only [be, List.length_cons, Finset.sum_range_succ', List.getD_cons_succ, List.getD_cons_zero, hexp, ← ih]
    exact Nat.add_comm _ _

theorem le_eq_sum (s : List Bit) :
    le s = ∑ j ∈ Finset.range s.length, (s.getD j false).toNat * 2 ^ j := by
  induction s with
  | nil => rfl
  | cons b s ih =>
    have hdouble : 2 * le s = ∑ j ∈ Finset.range s.length, (s.getD j false).toNat * 2 ^ (j + 1) := by
      rw [ih, Finset.mul_sum]
      exact Finset.sum_congr rfl fun j _ => by ring
    simp only [le, hdouble, List.length_cons, Finset.sum_range_succ', List.getD_cons_succ, List.getD_cons_zero,
      pow_zero, mul_one]
    exact Nat.add_comm _ _

/-- Reading the `n` lowest bits of a number back, least significant first, gives its residue modulo `2 ^ n`. -/
theorem le_testBits (n x : Nat) : le ((List.range n).map x.testBit) = x % 2 ^ n := by
  induction n generalizing x with
  | zero => simp [le, Nat.mod_one]
  | succ n ih =>
    have htail : (List.range n).map (x.testBit ∘ Nat.succ) = (List.range n).map (x / 2).testBit :=
      List.map_congr_left fun i _ => Nat.testBit_succ x i
    rw [List.range_succ_eq_map, List.map_cons, List.map_map, htail, le, ih, Nat.pow_succ', Nat.mod_mul,
      Nat.toNat_testBit, Nat.pow_zero, Nat.div_one]

/-! ## Bits and bytes -/

theorem bits8_eq_map (b : Byte) : bits8 b = (List.range 8).map fun k => b.getLsbD (7 - k) := rfl

theorem bits8_getElem? (b : Byte) {j : Nat} (hj : j < 8) : (bits8 b)[j]? = some (b.getLsbD (7 - j)) := by
  simp [bits8_eq_map, hj]

@[simp] theorem be_bits8 (b : Byte) : be (bits8 b) = b.toNat := by
  have hrev : (bits8 b).reverse = (List.range 8).map b.toNat.testBit := rfl
  calc be (bits8 b) = le (bits8 b).reverse := by rw [← be_reverse, List.reverse_reverse]
    _ = b.toNat % 2 ^ 8 := by rw [hrev, le_testBits]
    _ = b.toNat := Nat.mod_eq_of_lt b.isLt

/-- The value of byte `k` needs no reduction modulo 256: at most eight bits are read (R16). -/
theorem byteAt_toNat (s : List Bit) (k : Nat) : (byteAt s k).toNat = be ((s.drop (8 * k)).take 8) := by
  have hlt : be ((s.drop (8 * k)).take 8) < 2 ^ 8 :=
    (be_lt _).trans_le (Nat.pow_le_pow_right (by decide) (List.length_take_le _ _))
  rw [byteAt, BitVec.toNat_ofNat, Nat.mod_eq_of_lt hlt]

theorem bytesOf_getElem (s : List Bit) {k : Nat} (h : k < (bytesOf s).length) : (bytesOf s)[k] = byteAt s k := by
  simp [bytesOf]

/-- Bits `8k` to `8k + 7` of a payload are the bits of its byte `k` (R53, R76). -/
theorem bitsOf_drop_take (d : List Byte) {k : Nat} (h : k < d.length) :
    ((bitsOf d).drop (8 * k)).take 8 = bits8 d[k] := by
  induction d generalizing k with
  | nil => simp at h
  | cons b d ih =>
    cases k with
    | zero => exact List.take_left' (bits8_length b)
    | succ k =>
      have hskip : (bitsOf (b :: d)).drop (8 * (k + 1)) = (bitsOf d).drop (8 * k) := by
        rw [bitsOf_cons, Nat.mul_succ, Nat.add_comm, ← bits8_length b, List.drop_length_add_append]
      rw [hskip, ih (by simpa using h), List.getElem_cons_succ]

theorem bytesOf_bitsOf (d : List Byte) : bytesOf (bitsOf d) = d := by
  apply List.ext_getElem (by simp)
  intro k hk hd
  apply BitVec.eq_of_toNat_eq
  rw [bytesOf_getElem, byteAt_toNat, bitsOf_drop_take d hd, be_bits8]

theorem bitsOf_getElem? (d : List Byte) {k j : Nat} (h : k < d.length) (hj : j < 8) :
    (bitsOf d)[8 * k + j]? = some (d[k].getLsbD (7 - j)) := by
  calc (bitsOf d)[8 * k + j]? = (((bitsOf d).drop (8 * k)).take 8)[j]? := by
        rw [List.getElem?_take_of_lt hj, List.getElem?_drop]
    _ = some (d[k].getLsbD (7 - j)) := by rw [bitsOf_drop_take d h, bits8_getElem? _ hj]

/-- Settles O50. -/
theorem lsbFirstIsTheReversal : Obligations.LsbFirstIsTheReversal :=
  fun bits => (be_reverse bits).symm

/-- Settles O51: eight bits at a time, a payload's bits are its bytes' bits. -/
theorem payloadBitsAndBytes : Obligations.PayloadBitsAndBytes :=
  fun d => ⟨bytesOf_bitsOf d, fun _ _ h hj => bitsOf_getElem? d h hj⟩

/-- Settles O59. -/
theorem bitSequenceValues : Obligations.BitSequenceValues := by
  refine ⟨be_eq_sum, le_eq_sum, fun b => ⟨bits8_eq_map b, be_bits8 b⟩, fun s _ => ⟨bytesOf_length s, fun k h => ?_⟩⟩
  rw [bytesOf_getElem s h, byteAt_toNat]

/-! ## Whose turn a step is, and what the block's turn runs -/

theorem step_of_no_acts {s : State} (h : s.hostActs = []) : step s = blockTurn s := by
  simp only [step, h]

theorem step_of_wait {s : State} {acts : List HostAct} (h : s.hostActs = .wait :: acts) :
    step s = blockTurn { s with hostActs := acts } := by
  simp only [step, h]

/-- With no response outstanding, the block's turn runs the framed command at the head of the receiver (R72, R77). -/
theorem blockTurn_of_decode {s : State} {d : Decoded} {rest : List Byte} (hr : s.resp = [])
    (hd : decode s.cfg.chunkMaxBytes s.rx = some (d, rest)) : blockTurn s = runDecoded d { s with rx := rest } := by
  simp only [blockTurn, hr, hd]

/-- Settles O7: in both cases the turn is the block's, and what it runs does not depend on the list of acts. -/
theorem stepRunsTheDecodedCommand : Obligations.StepRunsTheDecodedCommand := by
  intro s i rest hr hd
  constructor
  · intro hacts
    rw [step_of_no_acts hacts, blockTurn_of_decode hr hd, runDecoded]
  · intro acts hacts
    rw [step_of_wait hacts, blockTurn_of_decode (s := { s with hostActs := acts }) hr hd, runDecoded]

/-! ## What a framed command answers -/

/-- The response codes of the raised errors (R79, R255). -/
def RaisedCode (code : Byte) : Prop := code = 0x20#8 ∨ code = 0x21#8 ∨ code = 0x22#8 ∨ code = 0x23#8

/-- The two ways a framed command ends: with an error raised, or with another response after some effect. -/
inductive Answers (s : State) : State → Prop where
  /-- TAKING AN ERROR: the response alone (R255). -/
  | raised (e : RaisedError) : Answers s (raiseError e s)
  /-- The command's effect is `u`, and then it sends a response that is no error's. -/
  | completed (r : Response) (u : State) (hr : ¬ RaisedCode r.code) (hu : u.resp = s.resp) : Answers s (respond r u)

theorem answers_ok {s u : State} (hu : u.resp = s.resp) : Answers s (respond .ok u) :=
  .completed .ok u (by simp [RaisedCode, Response.code]) hu

theorem answers_finishFrame {s u : State} (start : Word) (o : FrameOutcome) (hu : u.resp = s.resp) :
    Answers s (finishFrame start o u) := by
  cases o with
  | mismatch computed rx =>
    exact .completed (.crcMismatch start computed rx) (countCrcErr u) (by simp [RaisedCode, Response.code]) hu
  | packet values => exact .completed (.packet start values) (countPkt u) (by simp [RaisedCode, Response.code]) hu

theorem exec_answers {i : Instr} {s t : State} (h : exec i s = .next t) : Answers s t := by
  cases i with
  | reset =>
    obtain rfl := Host.Outcome.next.inj h
    exact answers_ok (resetRecord_resp s)
  | status =>
    obtain rfl := Host.Outcome.next.inj h
    exact .completed (.statusReport (statusWords s)) s (by simp [RaisedCode, Response.code]) rfl
  | append d =>
    rcases execAppend_cases h with ⟨-, rfl⟩ | ⟨-, -, rfl⟩ | ⟨-, -, -, rfl⟩ | ⟨-, -, -, rfl⟩
    · exact .raised .formatError
    · exact .raised .streamEnded
    · exact .raised .bufferOverflow
    · exact answers_ok (appendBits_resp (bitsOf d) s)
  | attempt =>
    rcases execAttempt_cases h with ⟨-, rfl⟩ | ⟨-, -, rfl⟩ | ⟨-, -, -, -, rfl⟩ | ⟨-, -, p, o, -, -, -, rfl⟩
    · exact .raised .formatError
    · exact .raised .streamEnded
    · exact .completed .noFrame (countNoSync (afterMiss s)) (by simp [RaisedCode, Response.code]) rfl
    · exact answers_finishFrame (startWord s p) o (afterHit_resp s p)
  | endStream =>
    rcases execEndStream_cases h with ⟨-, rfl⟩ | ⟨-, -, rfl⟩ | ⟨-, -, rfl⟩
    · exact .raised .formatError
    · exact .raised .streamEnded
    · exact answers_ok rfl

theorem runDecoded_answers {d : Decoded} {s t : State} (h : runDecoded d s = .next t) : Answers s t := by
  rcases runDecoded_cases h with ⟨i, -, hi⟩ | ⟨-, hd, -, rfl⟩
  · exact exec_answers hi
  · exact .raised (.illegalCommand hd)

/-- A response sent behind what stands on the channel is seen by its code (R78). -/
theorem code_of_respond {r : Response} {s u : State} {code : Byte} {more : List Byte} (hu : u.resp = s.resp)
    (h : (respond r u).resp = s.resp ++ code :: more) : r.code = code := by
  rw [respond_resp, hu, List.append_cancel_left_eq] at h
  simpa [h] using (encode_head r).symm

/-- Settles O24: a command that has an effect answers no error's code. -/
theorem raisedErrorsChangeNothing : Obligations.RaisedErrorsChangeNothing := by
  intro d s t code more h hresp hcode
  cases runDecoded_answers h with
  | raised e => rfl
  | completed r u hr hu =>
    have hraised : RaisedCode r.code := (code_of_respond hu hresp).symm ▸ hcode
    exact absurd hraised hr

/-! ## The configuration -/

/-- From `s` to `t` the configuration stays, and `CFG_OK` stays or is the result of the check (R3, R25). -/
def KeepsConfig (s t : State) : Prop := t.cfg = s.cfg ∧ (t.cfgOk = s.cfgOk ∨ t.cfgOk = configWf s.cfg)

theorem keepsConfig_of_eq {s t : State} (hc : t.cfg = s.cfg) (hok : t.cfgOk = s.cfgOk) : KeepsConfig s t :=
  ⟨hc, .inl hok⟩

theorem exec_keepsConfig {i : Instr} {s t : State} (h : exec i s = .next t) : KeepsConfig s t := by
  cases i with
  | reset =>
    obtain rfl := Host.Outcome.next.inj h
    exact ⟨rfl, .inr rfl⟩
  | status =>
    obtain rfl := Host.Outcome.next.inj h
    exact keepsConfig_of_eq rfl rfl
  | append d =>
    rcases execAppend_cases h with ⟨-, rfl⟩ | ⟨-, -, rfl⟩ | ⟨-, -, -, rfl⟩ | ⟨-, -, -, rfl⟩ <;>
      exact keepsConfig_of_eq rfl rfl
  | attempt =>
    rcases execAttempt_cases h with ⟨-, rfl⟩ | ⟨-, -, rfl⟩ | ⟨-, -, -, -, rfl⟩ | ⟨-, -, p, o, -, -, -, rfl⟩ <;>
      exact keepsConfig_of_eq (by simp) (by simp)
  | endStream =>
    rcases execEndStream_cases h with ⟨-, rfl⟩ | ⟨-, -, rfl⟩ | ⟨-, -, rfl⟩ <;> exact keepsConfig_of_eq rfl rfl

theorem runDecoded_keepsConfig {d : Decoded} {s t : State} (h : runDecoded d s = .next t) : KeepsConfig s t := by
  rcases runDecoded_cases h with ⟨i, -, hi⟩ | ⟨-, hd, -, rfl⟩
  · exact exec_keepsConfig hi
  · exact keepsConfig_of_eq rfl rfl

theorem blockTurn_keepsConfig {s t : State} (h : blockTurn s = .next t) : KeepsConfig s t := by
  rcases blockTurn_cases h with ⟨-, rfl⟩ | ⟨-, -, rfl⟩ | ⟨-, d, rest, -, hrun⟩
  · exact keepsConfig_of_eq rfl rfl
  · exact keepsConfig_of_eq rfl rfl
  · have hkeep := runDecoded_keepsConfig hrun
    exact hkeep

theorem hostAct_keepsConfig (a : HostAct) (s : State) : KeepsConfig s (hostAct a s) := by
  cases a with
  | put b => exact keepsConfig_of_eq rfl rfl
  | take => cases hr : s.resp <;> simp [hostAct, hr, KeepsConfig]
  | powerOn => exact ⟨rfl, .inr rfl⟩
  | wait => exact keepsConfig_of_eq rfl rfl

/-- Taking an act off the host's list touches neither the configuration nor `CFG_OK`. -/
theorem step_keepsConfig {s t : State} (h : step s = .next t) : KeepsConfig s t := by
  rcases step_cases h with ⟨-, hb⟩ | ⟨acts, -, hb⟩ | ⟨a, acts, -, -, rfl⟩
  · exact blockTurn_keepsConfig hb
  · have hkeep := blockTurn_keepsConfig hb
    exact hkeep
  · exact hostAct_keepsConfig a { s with hostActs := acts }

/-- Settles O20: where `CFG_OK` is the check's result, checking anew gives it again. -/
theorem configurationIsFixed : Obligations.ConfigurationIsFixed := by
  intro s t h
  obtain ⟨hcfg, hok⟩ := step_keepsConfig h
  refine ⟨hcfg, fun hs => ?_⟩
  rcases hok with hkept | hchecked
  · exact hkept
  · exact hchecked.trans hs.symm

end Sys2Proof.Machine

/-!
PROOFS, the state family: what a command and a step can do to the record (R18, R20), the invariant (R21, R24, R25,
R253), the cursor (R23), the counters (R26 to R28), the flags (R24, R34), the reset values (R36), and what an attempt
depends on (R33).
-/

namespace Sys2Proof.Machine

/-! ## FLAGS -/

theorem flagsWord_eq_ofNat (s : State) : flagsWord s = BitVec.ofNat 32 (s.cfgOk.toNat + 2 * s.ended.toNat) := by
  unfold flagsWord flagBit
  cases s.cfgOk <;> cases s.ended <;> rfl

/-- Settles O29: FLAGS is a number below 4, so no bit from 2 on is set. -/
theorem flagsWordBits : Obligations.FlagsWordBits := by
  intro s
  rw [flagsWord_eq_ofNat]
  generalize s.cfgOk = ok
  generalize s.ended = ended
  refine ⟨by cases ok <;> cases ended <;> rfl, by cases ok <;> cases ended <;> rfl, fun k hk => ?_⟩
  have hok := Bool.toNat_lt ok
  have hended := Bool.toNat_lt ended
  have hpow : 2 ^ 2 ≤ 2 ^ k := Nat.pow_le_pow_right (by decide) hk
  rw [BitVec.getLsbD_ofNat, Nat.testBit_lt_two_pow (by omega), Bool.and_false]

/-! ## An ATTEMPT that passes its checks -/

/-- The response to the frame that begins at stream position `start` (R135). -/
def outcomeResponse (start : Word) : FrameOutcome → Response
  | .mismatch computed rx => .crcMismatch start computed rx
  | .packet values => .packet start values

@[simp] theorem finishFrame_resp (start : Word) (o : FrameOutcome) (t : State) :
    (finishFrame start o t).resp = t.resp ++ (outcomeResponse start o).encode := by cases o <;> rfl

/-- The four header bytes of a hit's response say nothing of the start position (R78). -/
theorem outcomeResponse_header (a b : Word) (o : FrameOutcome) :
    (outcomeResponse a o).encode.take 4 = (outcomeResponse b o).encode.take 4 := by
  cases o <;> simp [outcomeResponse, Response.encode, Response.code, Response.payload, be16]

/-- What follows the four bytes of START in a hit's response does not depend on them (R80). -/
theorem outcomeResponse_tail (a b : Word) (o : FrameOutcome) :
    (outcomeResponse a o).encode.drop 8 = (outcomeResponse b o).encode.drop 8 := by cases o <;> rfl

theorem startWord_congr {s₁ s₂ : State} (h : s₁.posHead % 2 ^ 32 = s₂.posHead % 2 ^ 32) (p : Nat) :
    startWord s₁ p = startWord s₂ p := by
  apply BitVec.eq_of_toNat_eq
  simp only [startWord, BitVec.toNat_ofNat]
  omega

/-- Everything an ATTEMPT that passes its checks can do: the search decides, and the pipeline on the frame found. -/
theorem exec_attempt_open {s t : State} (ho : s.Open) (h : exec .attempt s = .next t) :
    (find s.cfg.syncWord s.buf 0 (searchLimit s.cfg s.buf.length) = none ∧
      t = respond .noFrame (countNoSync (afterMiss s))) ∨
    (∃ p o, find s.cfg.syncWord s.buf 0 (searchLimit s.cfg s.buf.length) = some p ∧
      processFrame s.cfg ((s.buf.drop p).take s.cfg.frameBits) = .ok o ∧
      t = finishFrame (startWord s p) o (afterHit s p)) := by
  obtain ⟨hok, hended⟩ := ho
  rcases execAttempt_cases h with ⟨hc, -⟩ | ⟨-, he, -⟩ | ⟨-, -, hf, -, ht⟩ | ⟨-, -, p, o, hf, -, hp, ht⟩
  · simp [hok] at hc
  · simp [hended] at he
  · exact .inl ⟨hf, ht⟩
  · exact .inr ⟨p, o, hf, hp, ht⟩

/-- Settles O39: the search and the pipeline read the configuration and the buffer alone, so both states miss, or
both hit at one offset with one outcome. -/
theorem attemptDependsOnTheBufferAlone : Obligations.AttemptDependsOnTheBufferAlone := by
  intro s₁ s₂ t₁ t₂ hok₁ he₁ hok₂ he₂ hcfg hbuf hr₁ hr₂ h₁ h₂
  rcases exec_attempt_open ⟨hok₁, he₁⟩ h₁ with ⟨hf₁, rfl⟩ | ⟨p, o, hf₁, hp₁, rfl⟩ <;>
    rcases exec_attempt_open ⟨hok₂, he₂⟩ h₂ with ⟨hf₂, rfl⟩ | ⟨q, o', hf₂, hp₂, rfl⟩ <;>
    rw [hcfg, hbuf, hf₂] at hf₁
  case inl.inl => simp [hcfg, hbuf, hr₁, hr₂]
  case inl.inr => cases hf₁
  case inr.inl => cases hf₁
  case inr.inr =>
    obtain rfl := Option.some.inj hf₁
    rw [hcfg, hbuf, hp₂] at hp₁
    obtain rfl := Except.ok.inj hp₁
    refine ⟨by simp [hcfg, hbuf], ?_, ?_, fun hpos => ?_⟩
    · simpa [hr₁, hr₂] using outcomeResponse_header _ _ _
    · simpa [hr₁, hr₂] using outcomeResponse_tail _ _ _
    · simp [hr₁, hr₂, startWord_congr hpos]

/-! ## What a command does to the state -/

/-- The state that an END which passes its checks leaves before it answers (R233). -/
def afterEnd (s : State) : State := { s with buf := [], posHead := s.posHead + s.buf.length, ended := true }

@[simp] theorem afterEnd_cfg (s : State) : (afterEnd s).cfg = s.cfg := rfl
@[simp] theorem afterEnd_buf (s : State) : (afterEnd s).buf = [] := rfl
@[simp] theorem afterEnd_posHead (s : State) : (afterEnd s).posHead = s.posHead + s.buf.length := rfl
@[simp] theorem afterEnd_ended (s : State) : (afterEnd s).ended = true := rfl
@[simp] theorem afterEnd_cfgOk (s : State) : (afterEnd s).cfgOk = s.cfgOk := rfl
@[simp] theorem afterEnd_cntNoSync (s : State) : (afterEnd s).cntNoSync = s.cntNoSync := rfl
@[simp] theorem afterEnd_cntCrcErr (s : State) : (afterEnd s).cntCrcErr = s.cntCrcErr := rfl
@[simp] theorem afterEnd_cntPkt (s : State) : (afterEnd s).cntPkt = s.cntPkt := rfl
@[simp] theorem afterEnd_resp (s : State) : (afterEnd s).resp = s.resp := rfl

/-- `CommandEffect i s t`: the command `i` in the state `s` can leave `t`, one constructor per outcome. -/
inductive CommandEffect : Instr → State → State → Prop where
  | reset (s : State) : CommandEffect .reset s (respond .ok (resetRecord s))
  | status (s : State) : CommandEffect .status s (respond (.statusReport (statusWords s)) s)
  /-- A failed check raises its error (R255); RESET has none (R230). -/
  | raised (i : Instr) (e : RaisedError) (s : State) (hi : i ≠ .reset) : CommandEffect i s (raiseError e s)
  | appended (d : List Byte) (s : State) (ho : s.Open) (hfit : s.buf.length + 8 * d.length ≤ s.cfg.bufCapBits) :
      CommandEffect (.append d) s (respond .ok (appendBits (bitsOf d) s))
  | missed (s : State) (ho : s.Open) (hlim : searchLimit s.cfg s.buf.length ≤ s.buf.length) :
      CommandEffect .attempt s (respond .noFrame (countNoSync (afterMiss s)))
  | hit (p : Nat) (o : FrameOutcome) (s : State) (ho : s.Open) (hfit : p + s.cfg.frameBits ≤ s.buf.length) :
      CommandEffect .attempt s (finishFrame (startWord s p) o (afterHit s p))
  | ended (s : State) (ho : s.Open) : CommandEffect .endStream s (respond .ok (afterEnd s))

/-- A command that answers a next state has one of the effects listed for it. -/
theorem exec_effect {i : Instr} {s t : State} (h : exec i s = .next t) : CommandEffect i s t := by
  cases i with
  | reset =>
    obtain rfl := Host.Outcome.next.inj h
    exact .reset s
  | status =>
    obtain rfl := Host.Outcome.next.inj h
    exact .status s
  | append d =>
    rcases execAppend_cases h with ⟨-, rfl⟩ | ⟨-, -, rfl⟩ | ⟨-, -, -, rfl⟩ | ⟨hc, he, hfit, rfl⟩
    · exact .raised _ .formatError s nofun
    · exact .raised _ .streamEnded s nofun
    · exact .raised _ .bufferOverflow s nofun
    · exact .appended d s ⟨hc, he⟩ hfit
  | attempt =>
    rcases execAttempt_cases h with
      ⟨-, rfl⟩ | ⟨-, -, rfl⟩ | ⟨hc, he, -, hlim, rfl⟩ | ⟨hc, he, p, o, -, hfit, -, rfl⟩
    · exact .raised _ .formatError s nofun
    · exact .raised _ .streamEnded s nofun
    · exact .missed s ⟨hc, he⟩ hlim
    · exact .hit p o s ⟨hc, he⟩ hfit
  | endStream =>
    rcases execEndStream_cases h with ⟨-, rfl⟩ | ⟨-, -, rfl⟩ | ⟨hc, he, rfl⟩
    · exact .raised _ .formatError s nofun
    · exact .raised _ .streamEnded s nofun
    · exact .ended s ⟨hc, he⟩

/-! ## What a step does to the record -/

/-- Everything an act of the host can do to the record (R286). -/
theorem hostAct_record (a : HostAct) (s : State) : SameRecord s (hostAct a s) ∨ a = .powerOn := by
  cases a with
  | put b => exact .inl (by simp [SameRecord, hostAct])
  | take => exact .inl (by cases hr : s.resp <;> simp [SameRecord, hostAct, hr])
  | powerOn => exact .inr rfl
  | wait => exact .inl (by simp [SameRecord, hostAct])

/-- Everything the block's turn can do to the record: nothing, or what the command at the head of the receiver does to a
state with the same record (R18, R255, R282). -/
theorem blockTurn_record {s t : State} (h : blockTurn s = .next t) :
    SameRecord s t ∨
    (∃ i rest u, decode s.cfg.chunkMaxBytes s.rx = some (.command i, rest) ∧ SameRecord s u ∧
      CommandEffect i u t) := by
  rcases blockTurn_cases h with ⟨-, rfl⟩ | ⟨-, -, rfl⟩ | ⟨-, d, rest, hd, hrun⟩
  · exact .inl (by simp [SameRecord])
  · exact .inl (by simp [SameRecord])
  · rcases runDecoded_cases hrun with ⟨i, rfl, hi⟩ | ⟨-, hd, -, rfl⟩
    · exact .inr ⟨i, rest, _, hd, by simp [SameRecord], exec_effect hi⟩
    · exact .inl (by simp [SameRecord])

/-- Everything a step can do to the record: nothing, a power-on reset, or what the command at the head of the receiver
does to a state with the same record. -/
theorem step_record {s t : State} (h : step s = .next t) :
    SameRecord s t ∨
    ((∃ acts, s.hostActs = .powerOn :: acts) ∧ SameRecord (resetRecord s) t) ∨
    (∃ i rest u, decode s.cfg.chunkMaxBytes s.rx = some (.command i, rest) ∧ SameRecord s u ∧
      CommandEffect i u t) := by
  rcases step_cases h with ⟨-, hb⟩ | ⟨acts, -, hb⟩ | ⟨a, acts, -, ha, rfl⟩
  · exact (blockTurn_record hb).imp_right .inr
  · exact (blockTurn_record hb).imp_right .inr
  · rcases hostAct_record a { s with hostActs := acts } with hsame | rfl
    · exact .inl hsame
    · exact .inr (.inl ⟨⟨acts, ha⟩, by simp [SameRecord, hostAct]⟩)

/-! ## The invariant -/

/-- The invariant speaks of the record and the configuration alone. -/
theorem inv_of_sameRecord {s t : State} (h : SameRecord s t) (hs : s.Inv) : t.Inv := by
  obtain ⟨hcfg, hbuf, hpos, hended, hok, hno, hcrc, hpkt⟩ := h
  obtain ⟨hcheck, hwf, hempty, hstill⟩ := hs
  constructor <;> simpa only [hcfg, hbuf, hpos, hended, hok, hno, hcrc, hpkt]

theorem inv_powerOn (c : Config) : (State.powerOn c).Inv where
  cfgOk_eq := rfl
  buf_wf := memory_wf_nil c.bufCapBits
  ended_empty := fun _ => rfl
  malformed_still := fun _ => ⟨rfl, rfl, rfl, rfl, rfl, rfl⟩

theorem inv_resetRecord (s : State) : (resetRecord s).Inv :=
  inv_of_sameRecord (s := State.powerOn s.cfg) (by simp [SameRecord]) (inv_powerOn s.cfg)

/-- Under a well-formed configuration only the capacity and the emptiness after END are to be kept. -/
theorem inv_of_cfgOk {s t : State} (hs : s.Inv) (hok : s.cfgOk = true) (hcfg : t.cfg = s.cfg)
    (hkeep : t.cfgOk = s.cfgOk) (hwf : Memory.wf t.cfg.bufCapBits t.buf = true)
    (hempty : t.ended = true → t.buf = []) : t.Inv where
  cfgOk_eq := by rw [hkeep, hcfg, hs.cfgOk_eq]
  buf_wf := hwf
  ended_empty := hempty
  malformed_still := fun hbad => by simp [hkeep, hok] at hbad

theorem memory_wf_drop {cap : Nat} {buf : List Bit} (n : Nat) (h : Memory.wf cap buf = true) :
    Memory.wf cap (buf.drop n) = true := by
  rw [memory_wf_iff] at h ⊢
  rw [List.length_drop]
  omega

/-- Every command keeps the invariant. -/
theorem effect_keeps_inv {i : Instr} {s t : State} (h : CommandEffect i s t) (hs : s.Inv) : t.Inv := by
  cases h with
  | reset => exact inv_of_sameRecord (by simp [SameRecord]) (inv_resetRecord s)
  | status => exact inv_of_sameRecord (by simp [SameRecord]) hs
  | raised => exact inv_of_sameRecord (by simp [SameRecord]) hs
  | appended d _ ho hfit =>
    exact inv_of_cfgOk hs ho.1 rfl rfl (appendBits_keeps_wf (by simpa using hfit)) (by simp [ho.2])
  | missed _ ho =>
    exact inv_of_cfgOk hs ho.1 rfl rfl (memory_wf_drop (searchLimit s.cfg s.buf.length) hs.buf_wf) (by simp [ho.2])
  | hit p o _ ho =>
    have hwf := memory_wf_drop (p + s.cfg.frameBits) hs.buf_wf
    exact inv_of_cfgOk hs ho.1 (by simp) (by simp) (by simpa using hwf) (by simp [ho.2])
  | ended _ ho => exact inv_of_cfgOk hs ho.1 rfl rfl (memory_wf_nil _) (fun _ => rfl)

/-- Settles O18: each of the three things a step can do to the record keeps the invariant. -/
theorem stepKeepsTheRecordLegal : Obligations.StepKeepsTheRecordLegal := by
  intro s t hs h
  rcases step_record h with hsame | ⟨-, hreset⟩ | ⟨i, rest, u, -, hu, heffect⟩
  · exact inv_of_sameRecord hsame hs
  · exact inv_of_sameRecord hreset (inv_resetRecord s)
  · exact effect_keeps_inv heffect (inv_of_sameRecord hu hs)

/-- Settles O17. -/
theorem powerOnKeepsTheRecordLegal : Obligations.PowerOnKeepsTheRecordLegal :=
  ⟨inv_powerOn, inv_powerOn referenceConfig⟩

/-! ## Reset values and the power-on reset -/

/-- Settles O16. -/
theorem resetValues : Obligations.ResetValues :=
  ⟨fun c => ⟨powerOn_buf c, powerOn_posHead c, powerOn_ended c, powerOn_cfgOk c, powerOn_cntNoSync c,
    powerOn_cntCrcErr c, powerOn_cntPkt c, powerOn_rx c⟩, referenceConfig, rfl⟩

/-- An act of the host other than `wait` is the whole step (R286). -/
theorem step_of_hostAct {s : State} {a : HostAct} {acts : List HostAct} (h : s.hostActs = a :: acts)
    (ha : a ≠ .wait) : step s = .next (hostAct a { s with hostActs := acts }) := by
  cases a <;> simp_all [step]

/-- Settles O11. -/
theorem powerOnResets : Obligations.PowerOnResets := by
  intro s acts h
  rw [step_of_hostAct h nofun]
  rfl

/-! ## Holding and waiting -/

theorem decode_of_receive_none {bytes : List Byte} (chunkMax : Nat) (h : receive bytes = none) :
    decode chunkMax bytes = none := by
  rw [decode, h]

/-- The block holds while a response is not taken, and waits for a whole command (R37, R267, R282, R284). -/
theorem blockTurn_of_idle {s : State} (h : s.resp ≠ [] ∨ receive s.rx = none) : blockTurn s = .next s := by
  unfold blockTurn
  split
  · rfl
  · rename_i hr
    rw [decode_of_receive_none _ (h.resolve_left (absurd hr))]

/-- Settles O9, by induction on the number of turns: each of them leaves the state that the next one starts from. -/
theorem blockHoldsForever : Obligations.BlockHoldsForever := by
  intro s k hacts hidle
  induction k with
  | zero => exact runSteps_zero s
  | succ k ih =>
    rw [runSteps_succ, step_of_no_acts hacts, blockTurn_of_idle hidle]
    exact ih

/-! ## ENDED -/

/-- Among the commands only END sets ENDED and only RESET clears it (R24). -/
theorem effect_ended {i : Instr} {s t : State} (h : CommandEffect i s t) :
    t.ended = s.ended ∨ (i = .endStream ∧ t.ended = true) ∨ (i = .reset ∧ t.ended = false) := by
  cases h with
  | reset => exact .inr (.inr ⟨rfl, rfl⟩)
  | status => exact .inl rfl
  | raised => exact .inl rfl
  | appended => exact .inl rfl
  | missed => exact .inl rfl
  | hit => exact .inl (by simp)
  | ended => exact .inr (.inl ⟨rfl, rfl⟩)

/-- Settles O22: a host act keeps or clears ENDED, and a command does what `effect_ended` lists. -/
theorem endedSetAndClearedOnlyBy : Obligations.EndedSetAndClearedOnlyBy := by
  intro s t h
  rcases step_record h with ⟨-, -, -, hkept, -⟩ | ⟨hpower, -, -, -, hcleared, -⟩ |
    ⟨i, rest, u, hd, hu, heffect⟩
  · simp +contextual [hkept]
  · simp [hcleared, hpower]
  · obtain ⟨-, -, -, hue, -⟩ := hu
    rcases effect_ended heffect with hkept | ⟨rfl, hset⟩ | ⟨rfl, hcleared⟩
    · simp +contextual [hkept, hue]
    · simp [hset, hd]
    · simp [hcleared, hd]

/-! ## POS_HEAD and POS_TAIL -/

/-- Of the commands that are no RESET only ATTEMPT and END move the cursor, and they move it on (R23). -/
theorem effect_posHead {i : Instr} {s t : State} (h : CommandEffect i s t) (hi : i ≠ .reset) :
    t.posHead = s.posHead ∨ (s.posHead ≤ t.posHead ∧ (i = .attempt ∨ i = .endStream)) := by
  cases h with
  | reset => exact absurd rfl hi
  | status => exact .inl rfl
  | raised => exact .inl rfl
  | appended => exact .inl rfl
  | missed => exact .inr (by simp)
  | hit => exact .inr (by simp)
  | ended => exact .inr (by simp)

theorem effect_reset_zeroes {s t : State} (h : CommandEffect .reset s t) : t.posHead = 0 ∧ posTail t = 0 := by
  cases h with
  | reset => exact ⟨rfl, rfl⟩
  | raised _ _ _ hi => exact absurd rfl hi

/-- The bits that ATTEMPT and END take from the buffer are those the cursor passes, so POS_TAIL stays (R23). -/
theorem effect_keeps_posTail {i : Instr} {s t : State} (h : CommandEffect i s t) (hi : i ≠ .reset)
    (happend : ∀ d, i ≠ .append d) : posTail t = posTail s := by
  cases h with
  | reset => exact absurd rfl hi
  | status => rfl
  | raised => rfl
  | appended d => exact absurd rfl (happend d)
  | missed _ _ hlim => simp [posTail]; omega
  | hit p _ _ _ hfit => simp [posTail]; omega
  | ended => simp [posTail]

theorem raisedError_encode_ne_ok (e : RaisedError) : e.response.encode ≠ Response.ok.encode := by
  cases e <;> simp [RaisedError.response, Response.encode, Response.code]

/-- APPEND moves POS_TAIL past the bits of its payload when it is answered OK, and not at all otherwise (R23, R100). -/
theorem effect_append_posTail {d : List Byte} {s t : State} (h : CommandEffect (.append d) s t) :
    (t.resp = s.resp ++ Response.ok.encode ∧ posTail t = posTail s + 8 * d.length) ∨
    (t.resp ≠ s.resp ++ Response.ok.encode ∧ posTail t = posTail s) := by
  cases h with
  | raised _ e => exact .inr ⟨by simpa using raisedError_encode_ne_ok e, rfl⟩
  | appended => exact .inl ⟨rfl, by simp [posTail, Nat.add_assoc]⟩

theorem effect_posTail_le {i : Instr} {s t : State} (h : CommandEffect i s t) (hi : i ≠ .reset) :
    posTail s ≤ posTail t := by
  by_cases happend : ∃ d, i = .append d
  · obtain ⟨d, rfl⟩ := happend
    rcases effect_append_posTail h with ⟨-, hmoved⟩ | ⟨-, hkept⟩ <;> omega
  · exact (effect_keeps_posTail h hi fun d hd => happend ⟨d, hd⟩).ge

theorem append_of_posTail_lt {i : Instr} {s t : State} (h : CommandEffect i s t) (hlt : posTail s < posTail t) :
    ∃ d, i = .append d := by
  by_contra hno
  by_cases hi : i = .reset
  · subst hi
    obtain ⟨-, hzero⟩ := effect_reset_zeroes h
    omega
  · exact hlt.ne' (effect_keeps_posTail h hi fun d hd => hno ⟨d, hd⟩)

theorem attempt_or_end_of_posHead_lt {i : Instr} {s t : State} (h : CommandEffect i s t) (hlt : s.posHead < t.posHead) :
    i = .attempt ∨ i = .endStream := by
  by_cases hi : i = .reset
  · subst hi
    obtain ⟨hzero, -⟩ := effect_reset_zeroes h
    omega
  · rcases effect_posHead h hi with hkept | ⟨-, hwho⟩
    · exact absurd hkept hlt.ne'
    · exact hwho

/-- Settles O23, one lemma about the command's effect per clause. -/
theorem cursorAndTail : Obligations.CursorAndTail := by
  intro i s t h
  have heffect := exec_effect h
  refine ⟨?_, fun hi => ⟨?_, effect_posTail_le heffect hi⟩, append_of_posTail_lt heffect,
    attempt_or_end_of_posHead_lt heffect, ?_, ?_⟩
  · rintro rfl
    exact effect_reset_zeroes heffect
  · rcases effect_posHead heffect hi with hkept | ⟨hle, -⟩
    · exact hkept.ge
    · exact hle
  · rintro d rfl hok
    rcases effect_append_posTail heffect with ⟨-, hmoved⟩ | ⟨hne, -⟩
    · exact hmoved
    · exact absurd hok hne
  · rintro d rfl hne
    rcases effect_append_posTail heffect with ⟨hok, -⟩ | ⟨-, hkept⟩
    · exact absurd hok hne
    · exact hkept

/-! ## The counters -/

/-- No command but RESET and an ATTEMPT that passes its checks writes a counter (R26 to R28). -/
theorem effect_keeps_counters {i : Instr} {s t : State} (h : CommandEffect i s t) (hi : i ≠ .reset)
    (hattempt : i = .attempt → ¬ s.Open) :
    t.cntNoSync = s.cntNoSync ∧ t.cntCrcErr = s.cntCrcErr ∧ t.cntPkt = s.cntPkt := by
  cases h with
  | reset => exact absurd rfl hi
  | status => exact ⟨rfl, rfl, rfl⟩
  | raised => exact ⟨rfl, rfl, rfl⟩
  | appended => exact ⟨rfl, rfl, rfl⟩
  | missed _ ho => exact absurd ho (hattempt rfl)
  | hit _ _ _ ho => exact absurd ho (hattempt rfl)
  | ended => exact ⟨rfl, rfl, rfl⟩

theorem not_open_iff {s : State} : ¬ s.Open ↔ s.cfgOk = false ∨ s.ended = true := by
  simp [State.Open, imp_iff_not_or]

/-- Settles O26: a miss counts in CNT_NOSYNC; a hit in the counter of the pipeline's outcome. -/
theorem countersCountAttempts : Obligations.CountersCountAttempts := by
  refine ⟨fun s t hok hended h => ?_, fun i s t hattempt hi h => ?_, fun s t h => ?_⟩
  · rcases exec_attempt_open ⟨hok, hended⟩ h with ⟨-, rfl⟩ | ⟨p, o, -, -, rfl⟩
    · exact ⟨0x10#8, _, rfl, .inl ⟨rfl, rfl, rfl, rfl⟩⟩
    · cases o with
      | mismatch computed rx => exact ⟨0x11#8, _, rfl, .inr (.inl ⟨rfl, rfl, rfl, rfl⟩)⟩
      | packet values => exact ⟨0x12#8, _, rfl, .inr (.inr ⟨rfl, rfl, rfl, rfl⟩)⟩
  · exact effect_keeps_counters (exec_effect h) hi fun ha => not_open_iff.mpr (hattempt ha)
  · obtain rfl := Host.Outcome.next.inj h
    exact ⟨resetRecord_cntNoSync s, resetRecord_cntCrcErr s, resetRecord_cntPkt s⟩

end Sys2Proof.Machine

/-!
PROOFS, the memory family: no access to the bit buffer, to a frame or to a parameter goes out of range in a state that
meets the invariant (R52, R105, R106, R204), and STATUS and RESET may be sent twice (R58).
-/

namespace Sys2Proof.Machine

/-! ## Every command answers a next state -/

/-- The checks of R259 answer, so only a command that passes them could stop. -/
theorem whenOpen_next {s : State} {k : Result} (hk : s.Open → ∃ t, k = .next t) : ∃ t, whenOpen s k = .next t := by
  rcases whenOpen_cases (s := s) (k := k) rfl with ⟨-, h⟩ | ⟨-, -, h⟩ | ⟨hok, hended, h⟩
  · exact ⟨_, h⟩
  · exact ⟨_, h⟩
  · exact h ▸ hk ⟨hok, hended⟩

theorem missPath_next {s : State} (hF : 1 ≤ s.cfg.frameBits) :
    ∃ t, missPath (searchLimit s.cfg s.buf.length) s = .next t :=
  ⟨_, missPath_eq (searchLimit_le s.cfg s.buf.length hF)⟩

/-- A frame that lies in the buffer is `F` bits long, and the pipeline has an outcome for it (R132, R204). -/
theorem hitPath_next {s : State} {p : Nat} (hc : configWf s.cfg = true) (hfit : p + s.cfg.frameBits ≤ s.buf.length) :
    ∃ t, hitPath p s = .next t := by
  have hraw : ((s.buf.drop p).take s.cfg.frameBits).length = s.cfg.frameBits := slice_length (slice_of_le hfit)
  rw [hitPath_eq hfit, processFrame_wf hc hraw]
  exact ⟨_, rfl⟩

/-- The search window keeps the slice of a hit and the advance of a miss in the buffer (R131, R133). -/
theorem attemptOnce_next {s : State} (hc : configWf s.cfg = true) : ∃ t, attemptOnce s = .next t := by
  obtain ⟨hsync, hsyncF, -⟩ := configWf_iff.mp hc
  unfold attemptOnce
  split
  · exact missPath_next (hsync.trans hsyncF)
  · rename_i p hfind
    obtain ⟨-, hlim, -⟩ := find_some_iff.mp hfind
    exact hitPath_next hc (frame_fits_of_lt_searchLimit hlim)

theorem execAppend_next (d : List Byte) (s : State) : ∃ t, execAppend d s = .next t :=
  whenOpen_next fun _ => by split <;> exact ⟨_, rfl⟩

theorem execAttempt_next {s : State} (hs : s.cfgOk = configWf s.cfg) : ∃ t, execAttempt s = .next t :=
  whenOpen_next fun ⟨hok, _⟩ => attemptOnce_next (hs ▸ hok)

/-- END advances by the whole buffer and no further (R106, R233). -/
theorem execEndStream_next (s : State) : ∃ t, execEndStream s = .next t :=
  whenOpen_next fun _ => by rw [advance_of_le (Nat.le_refl _)]; exact ⟨_, rfl⟩

/-- No command stops in a state whose `CFG_OK` is the result of the check (R25, R52). -/
theorem exec_next (i : Instr) {s : State} (hs : s.cfgOk = configWf s.cfg) : ∃ t, exec i s = .next t := by
  cases i with
  | reset => exact ⟨_, rfl⟩
  | append d => exact execAppend_next d s
  | attempt => exact execAttempt_next hs
  | status => exact ⟨_, rfl⟩
  | endStream => exact execEndStream_next s

theorem runDecoded_next (d : Decoded) {s : State} (hs : s.cfgOk = configWf s.cfg) : ∃ t, runDecoded d s = .next t := by
  cases d with
  | command i => exact exec_next i hs
  | illegal why h => exact ⟨_, rfl⟩

theorem blockTurn_next {s : State} (hs : s.cfgOk = configWf s.cfg) : ∃ t, blockTurn s = .next t := by
  unfold blockTurn
  split
  · exact ⟨s, rfl⟩
  · split
    · exact ⟨s, rfl⟩
    · rename_i d rest _
      exact runDecoded_next d hs

/-- Settles O19: an act of the host always answers, and of the invariant the block's turn needs `CFG_OK` alone. -/
theorem stepNeverStops : Obligations.StepNeverStops := by
  intro s hs
  unfold step
  split
  · exact blockTurn_next hs.cfgOk_eq
  · exact blockTurn_next hs.cfgOk_eq
  · exact ⟨_, rfl⟩

/-! ## A command sent by the host, with its response read -/

/-- What the host reads of a command that sends the response `r` after the effect `u` (R282). -/
theorem issue_of_respond {i : Instr} {s u : State} {r : Response}
    (h : sendCommand i (takeResponse s) = .next (respond r u)) (hu : u.resp = []) :
    issue i s = .next (r.encode, { u with taken := u.taken ++ r.encode }) := by
  have htake : takeResponse (respond r u) = { u with taken := u.taken ++ r.encode } := by
    simp [takeResponse, respond, hu]
  simp only [issue, h, htake, respond_resp, hu, List.nil_append]

theorem issue_status (s : State) :
    issue .status s = .next ((Response.statusReport (statusWords s)).encode,
      { takeResponse s with
        taken := (takeResponse s).taken ++ (Response.statusReport (statusWords s)).encode }) :=
  issue_of_respond (sendCommand_status _) rfl

theorem issue_reset (s : State) :
    issue .reset s = .next (Response.ok.encode,
      { resetRecord (takeResponse s) with taken := (takeResponse s).taken ++ Response.ok.encode }) :=
  issue_of_respond (sendCommand_reset _) rfl

/-- Settles O30: the status words and the reset record do not depend on the bytes the host has read, and the first
command leaves nothing else that the second could change. -/
theorem statusAndResetAreIdempotent : Obligations.StatusAndResetAreIdempotent := by
  rintro s i (rfl | rfl)
  · exact ⟨_, _, _, issue_status s, issue_status _, rfl⟩
  · exact ⟨_, _, _, issue_reset s, issue_reset _, rfl⟩

end Sys2Proof.Machine

/-!
PROOFS, the encoding family: the command codec (R70 to R77), the bytes of every response and which of them a command
sends (R75, R78 to R81), how a command travels across the two channels (R70, R72, R282), and how long a DRAIN takes
(R83, R137).
-/

namespace Sys2Proof

/-! ## The operand of a command, and what R74 asks of its header -/

/-- The opcode of a command (R73). -/
def Instr.opcode : Instr → Byte
  | .reset => 0x01#8
  | .append _ => 0x02#8
  | .attempt => 0x03#8
  | .status => 0x04#8
  | .endStream => 0x05#8

/-- The payload bytes of a command (R76). -/
def Instr.operand : Instr → List Byte
  | .append d => d
  | .reset | .attempt | .status | .endStream => []

/-- Conditions 3 and 4 of R74 on a payload count, for the command that carries the payload (R74, R76). -/
def Instr.Admits (chunkMax len : Nat) (payload : List Byte) : Instr → Prop
  | .append d => len ≤ chunkMax ∧ d = payload
  | .reset | .attempt | .status | .endStream => len = 0

/-- Every command has one form on the channel: a header that counts the operand, then the operand (R71, R76). -/
theorem encode_eq (i : Instr) : encode i = (headerOf i.opcode i.operand.length).bytes ++ i.operand := by
  cases i <;> simp [encode, Instr.opcode, Instr.operand]

theorem lenFits_iff {i : Instr} : i.lenFits = true ↔ i.operand.length < 65536 := by
  cases i <;> simp [Instr.lenFits, Instr.operand]

theorem wellFormed_iff {chunkMax : Nat} {i : Instr} :
    i.wellFormed chunkMax = true ↔ i.operand.length < 65536 ∧ i.operand.length ≤ chunkMax := by
  cases i <;> simp [Instr.wellFormed, Instr.lenFits, Instr.chunkFits, Instr.operand]

/-- A payload of the announced length is the operand of a well-formed command exactly when R74 admits it. -/
theorem admits_iff {chunkMax : Nat} {payload : List Byte} {i : Instr} (hlt : payload.length < 65536) :
    i.Admits chunkMax payload.length payload ↔ i.operand = payload ∧ i.wellFormed chunkMax = true := by
  cases i with
  | append d =>
    simp only [Instr.Admits, wellFormed_iff, Instr.operand]
    constructor
    · rintro ⟨hle, rfl⟩
      exact ⟨rfl, hlt, hle⟩
    · rintro ⟨rfl, -, hle⟩
      exact ⟨hle, rfl⟩
  | reset | attempt | status | endStream =>
    simp [Instr.Admits, wellFormed_iff, Instr.operand, List.nil_eq]

/-! ## The classification of a framed command -/

/-- The opcodes of the map, as the range that R74 names. -/
theorem opcode_range_iff {b : Byte} :
    (0x01#8 ≤ b ∧ b ≤ 0x05#8) ↔ b = 0x01#8 ∨ b = 0x02#8 ∨ b = 0x03#8 ∨ b = 0x04#8 ∨ b = 0x05#8 := by
  bv_omega

/-- A command without payload is legal exactly with `LEN = 0` (R74, condition 3). -/
theorem noPayload_eq_command {h : Header} {i j : Instr} : noPayload h i = .command j ↔ i = j ∧ h.len = 0 := by
  unfold noPayload
  split <;> simp [*]

/-- A framed command is the legal command `i` exactly when its header carries `RSVD = 0` and the opcode of `i`, and
its payload count and payload are ones that `i` admits (R73, R74, R77). -/
theorem classify_eq_command {chunkMax : Nat} {h : Header} {payload : List Byte} {i : Instr} :
    classify chunkMax h payload = .command i ↔
      h.h1 = 0x00#8 ∧ h.h0 = i.opcode ∧ i.Admits chunkMax h.len payload := by
  constructor
  · intro hc
    unfold classify at hc
    split_ifs at hc with hrsvd hopc hopc hle hopc hopc hopc
    · obtain ⟨rfl, hlen⟩ := noPayload_eq_command.mp hc
      exact ⟨not_not.mp hrsvd, hopc, hlen⟩
    · obtain rfl := Decoded.command.inj hc
      exact ⟨not_not.mp hrsvd, hopc, hle, rfl⟩
    · obtain ⟨rfl, hlen⟩ := noPayload_eq_command.mp hc
      exact ⟨not_not.mp hrsvd, hopc, hlen⟩
    · obtain ⟨rfl, hlen⟩ := noPayload_eq_command.mp hc
      exact ⟨not_not.mp hrsvd, hopc, hlen⟩
    · obtain ⟨rfl, hlen⟩ := noPayload_eq_command.mp hc
      exact ⟨not_not.mp hrsvd, hopc, hlen⟩
  · rintro ⟨hrsvd, hopc, hadmits⟩
    cases i with
    | append d =>
      obtain ⟨hle, rfl⟩ := hadmits
      simp [classify, hrsvd, hopc, Instr.opcode, hle]
    | reset | attempt | status | endStream =>
      have hlen : h.len = 0 := hadmits
      simp [classify, hrsvd, hopc, Instr.opcode, noPayload_eq_command, hlen]

/-- What R75 needs of an illegal command: it still has the header it came with. -/
def Decoded.KeepsHeader (h : Header) : Decoded → Prop
  | .command _ => True
  | .illegal _ echoed => echoed = h

theorem noPayload_keepsHeader (h : Header) (i : Instr) : (noPayload h i).KeepsHeader h := by
  unfold noPayload
  split
  · trivial
  · rfl

theorem classify_keepsHeader (chunkMax : Nat) (h : Header) (payload : List Byte) :
    (classify chunkMax h payload).KeepsHeader h := by
  unfold classify
  split_ifs
  · rfl
  · exact noPayload_keepsHeader h .reset
  · trivial
  · rfl
  · exact noPayload_keepsHeader h .attempt
  · exact noPayload_keepsHeader h .status
  · exact noPayload_keepsHeader h .endStream
  · rfl

/-- A framed command that is no legal one is an illegal one with its header to be echoed (R75, R77). -/
theorem classify_eq_illegal {chunkMax : Nat} {h : Header} {payload : List Byte}
    (hc : ¬ ∃ i, classify chunkMax h payload = .command i) : ∃ why, classify chunkMax h payload = .illegal why h := by
  have hkeeps := classify_keepsHeader chunkMax h payload
  cases hd : classify chunkMax h payload with
  | command i => exact absurd ⟨i, hd⟩ hc
  | illegal why echoed =>
    rw [hd] at hkeeps
    obtain rfl : echoed = h := hkeeps
    exact ⟨why, rfl⟩

/-- Settles O3: the opcode decides which command it can be, and each admits the payload counts that R74 gives. -/
theorem legalHeaders : Obligations.LegalHeaders := by
  intro chunkMax h payload
  simp only [classify_eq_command, opcode_range_iff]
  constructor
  · rintro ⟨i, hrsvd, hopc, hadmits⟩
    cases i with
    | append d => exact ⟨hrsvd, by simp [hopc, Instr.opcode], fun hne => absurd hopc hne, fun _ => hadmits.1⟩
    | reset | attempt | status | endStream =>
      exact ⟨hrsvd, by simp [hopc, Instr.opcode], fun _ => hadmits, by simp [hopc, Instr.opcode]⟩
  · rintro ⟨hrsvd, hopc, hnone, hchunk⟩
    rcases hopc with hopc | hopc | hopc | hopc | hopc
    · exact ⟨.reset, hrsvd, hopc, hnone (by simp [hopc])⟩
    · exact ⟨.append payload, hrsvd, hopc, hchunk hopc, rfl⟩
    · exact ⟨.attempt, hrsvd, hopc, hnone (by simp [hopc])⟩
    · exact ⟨.status, hrsvd, hopc, hnone (by simp [hopc])⟩
    · exact ⟨.endStream, hrsvd, hopc, hnone (by simp [hopc])⟩

/-! ## Decoding -/

/-- Everything the decoder can do when it reads a command (R72, R77). -/
theorem decode_eq_some {chunkMax : Nat} {bytes rest : List Byte} {d : Decoded} :
    decode chunkMax bytes = some (d, rest) ↔ ∃ h payload,
      bytes = h.bytes ++ (payload ++ rest) ∧ payload.length = h.len ∧ classify chunkMax h payload = d := by
  unfold decode
  constructor
  · intro hd
    split at hd
    · cases hd
    · rename_i h payload rest' hr
      cases hd
      obtain ⟨hbytes, hlen⟩ := receive_eq_some.mp hr
      exact ⟨h, payload, hbytes, hlen, rfl⟩
  · rintro ⟨h, payload, hbytes, hlen, rfl⟩
    rw [receive_eq_some.mpr ⟨hbytes, hlen⟩]

/-- The bytes of a header and of the payload it counts decode to one framed command (R72). -/
theorem decode_frame (chunkMax : Nat) {h : Header} {payload : List Byte} (rest : List Byte)
    (hlen : payload.length = h.len) :
    decode chunkMax (h.bytes ++ (payload ++ rest)) = some (classify chunkMax h payload, rest) :=
  decode_eq_some.mpr ⟨h, payload, rfl, hlen, rfl⟩

/-- A byte list decodes to a legal command exactly when it begins with the encoding of that command, and the command is
well formed (R72, R73, R76). -/
theorem decode_eq_command {chunkMax : Nat} {bytes rest : List Byte} {i : Instr} :
    decode chunkMax bytes = some (.command i, rest) ↔
      i.wellFormed chunkMax = true ∧ bytes = encode i ++ rest := by
  simp only [decode_eq_some, classify_eq_command]
  constructor
  · rintro ⟨h, payload, rfl, hlen, hrsvd, hopc, hadmits⟩
    rw [← hlen] at hadmits
    obtain ⟨hoperand, hwf⟩ := (admits_iff (hlen ▸ header_len_lt h)).mp hadmits
    have hheader : headerOf i.opcode i.operand.length = h := by rw [← hopc, hoperand, hlen, headerOf_self hrsvd]
    exact ⟨hwf, by rw [encode_eq, hheader, hoperand, List.append_assoc]⟩
  · rintro ⟨hwf, rfl⟩
    obtain ⟨hlt, -⟩ := wellFormed_iff.mp hwf
    have hlen : (headerOf i.opcode i.operand.length).len = i.operand.length := headerOf_len _ hlt
    refine ⟨_, i.operand, by rw [encode_eq, List.append_assoc], hlen.symm, rfl, rfl, ?_⟩
    rw [hlen]
    exact (admits_iff hlt).mpr ⟨rfl, hwf⟩

/-- Settles O1. -/
theorem decodeOfEncode : Obligations.DecodeOfEncode :=
  fun _ _ _ hwf => decode_eq_command.mpr ⟨hwf, rfl⟩

/-- Settles O2. -/
theorem encodeOfDecode : Obligations.EncodeOfDecode :=
  fun _ _ _ _ hd => decode_eq_command.mp hd

/-- Settles O6: each sample is the encoding of its command. -/
theorem sampleWords : Obligations.SampleWords :=
  ⟨decodeOfEncode 32 .reset [] rfl, decodeOfEncode 32 (.append [0xA5#8, 0xF0#8]) [] rfl,
    decodeOfEncode 32 .attempt [] rfl, decodeOfEncode 32 .status [] rfl, decodeOfEncode 32 .endStream [] rfl⟩

/-! ## Framing -/

theorem receive_cons_eq_none {h0 h1 h2 h3 : Byte} {tail : List Byte} :
    receive (h0 :: h1 :: h2 :: h3 :: tail) = none ↔ tail.length < h2.toNat * 256 + h3.toNat := by
  rw [receive, ite_eq_right_iff]
  simp [Header.len]

/-- The receiver takes nothing of fewer than four bytes (R71, R72). -/
theorem receive_of_length_lt {bytes : List Byte} (h : bytes.length < 4) : receive bytes = none := by
  match bytes, h with
  | [], _ | [_], _ | [_, _], _ | [_, _, _], _ => rfl

/-- The receiver waits exactly while the header, or the payload it counts, has not arrived whole (R72). -/
theorem receive_eq_none {bytes : List Byte} : receive bytes = none ↔
    (bytes.length < 4 ∨ ∃ h0 h1 h2 h3 tail, bytes = h0 :: h1 :: h2 :: h3 :: tail ∧
      tail.length < h2.toNat * 256 + h3.toNat) := by
  constructor
  · intro hr
    match bytes with
    | [] | [_] | [_, _] | [_, _, _] => exact .inl (by simp)
    | h0 :: h1 :: h2 :: h3 :: tail =>
      exact .inr ⟨h0, h1, h2, h3, tail, rfl, receive_cons_eq_none.mp hr⟩
  · rintro (hshort | ⟨h0, h1, h2, h3, tail, rfl, hshort⟩)
    · exact receive_of_length_lt hshort
    · exact receive_cons_eq_none.mpr hshort

/-- Settles O4. -/
theorem commandOccupiesItsBytes : Obligations.CommandOccupiesItsBytes :=
  ⟨fun h payload rest hlen =>
    receive_eq_some.mpr ⟨List.append_assoc h.bytes payload rest, hlen⟩, fun _ => receive_eq_none⟩

/-- The channel bytes of a framed command. -/
def framedBytes (c : Header × List Byte) : List Byte := c.1.bytes ++ c.2

/-- With fuel for every command, the decoder cuts the framed commands off one by one, and stops at the fragment. -/
theorem decodeUpTo_framed {chunkMax : Nat} {cmds : List (Header × List Byte)} {fragment : List Byte}
    (hlen : ∀ c ∈ cmds, c.2.length = c.1.len) (hfrag : receive fragment = none) {fuel : Nat}
    (hfuel : cmds.length ≤ fuel) :
    decodeUpTo chunkMax fuel (cmds.flatMap framedBytes ++ fragment) =
      (cmds.map fun c => classify chunkMax c.1 c.2, fragment) := by
  induction cmds generalizing fuel with
  | nil =>
    have hdone := Machine.decode_of_receive_none chunkMax hfrag
    cases fuel <;> simp [decodeUpTo, hdone]
  | cons c cmds ih =>
    obtain ⟨fuel, rfl⟩ : ∃ n, fuel = n + 1 := Nat.exists_eq_add_one.mpr (Nat.zero_lt_of_lt hfuel)
    have hhead := decode_frame chunkMax (cmds.flatMap framedBytes ++ fragment) (hlen c (by simp))
    have htail := ih (fun c' hc' => hlen c' (by simp [hc'])) (Nat.le_of_succ_le_succ hfuel)
    simp only [List.flatMap_cons, framedBytes, List.append_assoc] at hhead htail ⊢
    simp only [decodeUpTo, hhead, htail, List.map_cons]

/-- Every framed command takes at least one byte of the channel. -/
theorem length_le_framed (cmds : List (Header × List Byte)) : cmds.length ≤ (cmds.flatMap framedBytes).length := by
  induction cmds with
  | nil => simp
  | cons c cmds ih => simp [framedBytes]; omega

/-- Settles O5: the length of the byte sequence is fuel enough for its commands. -/
theorem streamIsCutIntoCommands : Obligations.StreamIsCutIntoCommands := by
  intro chunkMax cmds fragment hlen hfrag
  have hfuel := length_le_framed cmds
  exact decodeUpTo_framed hlen hfrag (by rw [List.length_append]; exact hfuel.trans (Nat.le_add_right _ _))

end Sys2Proof

namespace Sys2Proof.Machine

/-! ## The bytes of a response -/

/-- The payload count of a response fits its low byte when it is below 256 (R78). -/
theorem be16_ofNat {n : Nat} (h : n < 256) : be16 (BitVec.ofNat 16 n) = [0x00#8, BitVec.ofNat 8 n] := by
  have hhigh : (BitVec.ofNat 16 n).extractLsb' 8 8 = 0x00#8 := by
    apply BitVec.eq_of_toNat_eq
    simp [Nat.shiftRight_eq_div_pow]
    omega
  have hlow : (BitVec.ofNat 16 n).extractLsb' 0 8 = BitVec.ofNat 8 n := by
    apply BitVec.eq_of_toNat_eq
    simp
  rw [be16, hhigh, hlow]

/-- A response whose payload is below 256 bytes: code, zero, zero, count, payload (R78). -/
theorem encode_eq_of_payload_length {r : Response} {n : Nat} (hn : r.payload.length = n) (h : n < 256) :
    r.encode = [r.code, 0x00#8, 0x00#8, BitVec.ofNat 8 n] ++ r.payload := by
  rw [Response.encode, hn, be16_ofNat h]
  rfl

theorem crcMismatch_encode (start : Word) (x y : Half) : (Response.crcMismatch start x y).encode =
    [0x11#8, 0x00#8, 0x00#8, 0x08#8] ++ be32 start ++ be16 x ++ be16 y := by
  rw [encode_eq_of_payload_length (n := 8) rfl (by decide)]
  simp [Response.code, Response.payload]

/-- At most 16 values keep the payload count of a PACKET at 68 (R79, R201). -/
theorem packet_encode {start : Word} {vs : List Word} (h : vs.length ≤ 16) : (Response.packet start vs).encode =
    [0x12#8, 0x00#8, 0x00#8, BitVec.ofNat 8 (4 + 4 * vs.length)] ++ be32 start ++ vs.flatMap be32 := by
  have hcount : (Response.packet start vs).payload.length = 4 + 4 * vs.length := by
    rw [Response.payload, List.length_append, be32_length, flatMap_be32_length]
  rw [encode_eq_of_payload_length hcount (by omega), List.append_assoc]
  rfl

theorem statusReport_encode {ws : List Word} (h : ws.length = 6) : (Response.statusReport ws).encode =
    [0x13#8, 0x00#8, 0x00#8, 0x18#8] ++ ws.flatMap be32 := by
  have hcount : (Response.statusReport ws).payload.length = 24 := by
    rw [Response.payload, flatMap_be32_length, h]
  rw [encode_eq_of_payload_length hcount (by decide)]
  rfl

/-- An ILLEGAL_COMMAND response echoes the four header bytes (R256). -/
theorem illegalCommand_encode (h : Header) : (Response.illegalCommand h).encode =
    [0x20#8, 0x00#8, 0x00#8, 0x04#8, h.h0, h.h1, h.h2, h.h3] := by
  rw [encode_eq_of_payload_length (n := 4) rfl (by decide)]
  rfl

/-- Settles O15: the counts of PACKET and STATUS_REPORT are those of their words, and every other response is
evaluated. -/
theorem responseBytes : Obligations.ResponseBytes :=
  ⟨rfl, rfl, crcMismatch_encode, fun _ _ h => packet_encode h, fun _ h => statusReport_encode h,
    illegalCommand_encode, rfl, rfl, rfl, fun _ => rfl, fun _ => rfl⟩

/-! ## One response for every command -/

/-- `Sends s t`: from `s` to `t` exactly one response goes behind what stands on the channel, and neither the bytes
taken nor the list of acts change (R78, R81). -/
def Sends (s t : State) : Prop :=
  ∃ r : Response, t.resp = s.resp ++ r.encode ∧ t.taken = s.taken ∧ t.hostActs = s.hostActs

theorem effect_sends {i : Instr} {s t : State} (h : CommandEffect i s t) : Sends s t := by
  cases h with
  | reset => exact ⟨.ok, rfl, rfl, rfl⟩
  | status => exact ⟨.statusReport (statusWords s), rfl, rfl, rfl⟩
  | raised _ e => exact ⟨e.response, rfl, rfl, rfl⟩
  | appended => exact ⟨.ok, rfl, rfl, rfl⟩
  | missed => exact ⟨.noFrame, rfl, rfl, rfl⟩
  | hit p o => exact ⟨outcomeResponse (startWord s p) o, by simp, by simp, by simp⟩
  | ended => exact ⟨.ok, rfl, rfl, rfl⟩

theorem runDecoded_sends {d : Decoded} {s t : State} (h : runDecoded d s = .next t) : Sends s t := by
  rcases runDecoded_cases h with ⟨i, -, hi⟩ | ⟨-, hd, -, rfl⟩
  · exact effect_sends (exec_effect hi)
  · exact ⟨.illegalCommand hd, rfl, rfl, rfl⟩

/-- A PACKET carries one value per field-table entry, which a well-formed table bounds by 16 (R79, R201). -/
theorem packet_values_length {c : Config} {raw : List Bit} {values : List Word} (hc : configWf c = true)
    (hr : raw.length = c.frameBits) (h : processFrame c raw = .ok (.packet values)) :
    values.length = c.fieldTable.length ∧ values.length ≤ 16 := by
  obtain ⟨-, -, -, -, -, -, -, htab, -⟩ := configWf_iff.mp hc
  have hlen : values.length = c.fieldTable.length := by
    rw [processFrame_wf hc hr] at h
    split at h <;> cases h
    simp [fieldWords]
  exact ⟨hlen, hlen ▸ (fieldTableWf_length htab).2⟩

/-- Settles O14, by the outcomes of each command; the invariant bounds the values of a PACKET. -/
theorem oneListedResponsePerCommand : Obligations.OneListedResponsePerCommand := by
  intro i s t hs h
  cases i with
  | reset =>
    obtain rfl := Host.Outcome.next.inj h
    exact ⟨.ok, rfl, rfl⟩
  | status =>
    obtain rfl := Host.Outcome.next.inj h
    exact ⟨_, rfl, statusWords s, rfl, rfl⟩
  | append d =>
    rcases execAppend_cases h with ⟨-, rfl⟩ | ⟨-, -, rfl⟩ | ⟨-, -, -, rfl⟩ | ⟨-, -, -, rfl⟩ <;>
      exact ⟨_, rfl, by simp⟩
  | endStream =>
    rcases execEndStream_cases h with ⟨-, rfl⟩ | ⟨-, -, rfl⟩ | ⟨-, -, rfl⟩ <;> exact ⟨_, rfl, by simp⟩
  | attempt =>
    rcases execAttempt_cases h with
      ⟨-, rfl⟩ | ⟨-, -, rfl⟩ | ⟨-, -, -, -, rfl⟩ | ⟨hok, -, p, o, -, hfit, ho, rfl⟩
    · exact ⟨.formatError, rfl, by simp⟩
    · exact ⟨.streamEnded, rfl, by simp⟩
    · exact ⟨.noFrame, rfl, by simp⟩
    · refine ⟨outcomeResponse (startWord s p) o, by simp, ?_⟩
      cases o with
      | mismatch computed rx => exact .inr (.inl ⟨_, computed, rx, rfl⟩)
      | packet values =>
        have hlen := packet_values_length (hs.cfgOk_eq ▸ hok) (slice_length (slice_of_le hfit)) ho
        exact .inr (.inr (.inl ⟨_, values, rfl, hlen⟩))

/-! ## The two channels -/

/-- No act of the host, and no power-on reset, loses or reorders a response byte (R81, R282). -/
theorem hostAct_sent (a : HostAct) (s : State) : (hostAct a s).taken ++ (hostAct a s).resp = s.taken ++ s.resp := by
  cases a with
  | take => cases hr : s.resp <;> simp [hostAct, hr]
  | put b => rfl
  | powerOn => rfl
  | wait => rfl

theorem blockTurn_sent {s t : State} (h : blockTurn s = .next t) : s.taken ++ s.resp <+: t.taken ++ t.resp := by
  rcases blockTurn_cases h with ⟨-, rfl⟩ | ⟨-, -, rfl⟩ | ⟨-, d, rest, -, hrun⟩
  · exact ⟨[], List.append_nil _⟩
  · exact ⟨[], List.append_nil _⟩
  · obtain ⟨r, hresp, htaken, -⟩ := runDecoded_sends hrun
    exact ⟨r.encode, by rw [hresp, htaken, List.append_assoc]⟩

/-- Settles O13. -/
theorem responsesOnlyGrow : Obligations.ResponsesOnlyGrow := by
  intro s t h
  rcases step_cases h with ⟨-, hb⟩ | ⟨acts, -, hb⟩ | ⟨a, acts, -, -, rfl⟩
  · exact blockTurn_sent hb
  · have hsent := blockTurn_sent hb
    exact hsent
  · rw [hostAct_sent a { s with hostActs := acts }]

/-- Settles O12: an act of the host is the whole step. -/
theorem hostTouchesOnlyTheChannels : Obligations.HostTouchesOnlyTheChannels := by
  refine ⟨fun s b acts ha => ?_, fun s b rest acts ha hr => ?_, fun s acts ha hr => ?_,
    fun s t a acts ha hwait hpower h => ?_⟩
  · exact step_of_hostAct ha nofun
  · rw [step_of_hostAct ha nofun]
    simp [hostAct, hr]
  · rw [step_of_hostAct ha nofun]
    simp [hostAct, hr]
  · rw [step_of_hostAct ha hwait] at h
    obtain rfl := Host.Outcome.next.inj h
    have hsame := (hostAct_record a { s with hostActs := acts }).resolve_right hpower
    exact ⟨hsame, (hostAct_sent a { s with hostActs := acts }).symm⟩

/-- Settles O8: the framed command is decoded whatever its header is, and a header that fails R74 is no command's. -/
theorem illegalCommandIsEchoed : Obligations.IllegalCommandIsEchoed := by
  intro s h payload rest hacts hresp hrx hlen hillegal
  have hdecode : decode s.cfg.chunkMaxBytes s.rx = some (classify s.cfg.chunkMaxBytes h payload, rest) := by
    rw [hrx, List.append_assoc]
    exact decode_frame _ rest hlen
  have hcommand : ¬ ∃ i, classify s.cfg.chunkMaxBytes h payload = .command i :=
    fun hlegal => hillegal ((legalHeaders s.cfg.chunkMaxBytes h payload).mp hlegal)
  obtain ⟨why, hwhy⟩ := classify_eq_illegal hcommand
  rw [step_of_no_acts hacts, blockTurn_of_decode hresp hdecode, hwhy]
  simp [runDecoded, raiseError, respond, RaisedError.response, hresp, illegalCommand_encode]

/-! ## A command sent across the channels -/

theorem runSteps_of_step {k : Nat} {s t : State} (h : step s = .next t) : runSteps (k + 1) s = runSteps k t :=
  coreRun_next (M := Sys2Proof.core) h

theorem runSteps_one (s : State) : runSteps 1 s = step s := by
  rw [runSteps_succ]
  cases step s <;> rfl

/-- The bytes of a command whose count fits `LEN` are framed whole, also when it is an illegal one (R71, R72). -/
theorem decode_encode_of_lenFits (chunkMax : Nat) {i : Instr} (h : i.lenFits = true) :
    ∃ d, decode chunkMax (encode i) = some (d, []) := by
  have hlen := (headerOf_len i.opcode (lenFits_iff.mp h)).symm
  have hframe := decode_frame chunkMax [] hlen
  rw [List.append_nil, ← encode_eq] at hframe
  exact ⟨_, hframe⟩

/-- What the host's send of a command runs is what the decoder makes of its bytes (R74, R77). -/
theorem sendCommand_of_decode {i : Instr} {s : State} {d : Decoded} {rest : List Byte} (hfit : i.lenFits = true)
    (hd : decode s.cfg.chunkMaxBytes (encode i) = some (d, rest)) : sendCommand i s = runDecoded d s := by
  rw [sendCommand, if_pos hfit, hd]

/-- An idle block that has been sent exactly one command runs it in its turn, and its receiver is empty again. -/
theorem step_of_received {s : State} {bytes : List Byte} {acts : List HostAct} {d : Decoded} (hrx : s.rx = [])
    (hresp : s.resp = []) (hd : decode s.cfg.chunkMaxBytes bytes = some (d, [])) :
    step { s with rx := s.rx ++ bytes, hostActs := .wait :: acts } = runDecoded d { s with hostActs := acts } := by
  have hall : decode s.cfg.chunkMaxBytes (s.rx ++ bytes) = some (d, []) := by rw [hrx]; exact hd
  calc step { s with rx := s.rx ++ bytes, hostActs := .wait :: acts }
      = blockTurn { s with rx := s.rx ++ bytes, hostActs := acts } := step_of_wait rfl
    _ = runDecoded d { s with rx := [], hostActs := acts } := blockTurn_of_decode hresp hall
    _ = runDecoded d { s with hostActs := acts } := by rw [← hrx]

/-- Settles O10: the puts bring the command's bytes into the receiver, and the turn runs what they decode to. -/
theorem commandSentByteByByteRuns : Obligations.CommandSentByteByByteRuns := by
  intro s i hrx hresp hwf
  have hd : decode s.cfg.chunkMaxBytes (encode i) = some (.command i, []) :=
    decode_eq_command.mpr ⟨hwf, (List.append_nil _).symm⟩
  rw [runSteps_put, runSteps_one, step_of_received hrx hresp hd, runDecoded]

/-- All that `issue` answers comes from the state that the command leaves (R282). -/
theorem issue_of_next {i : Instr} {s u : State} (h : sendCommand i (takeResponse s) = .next u) :
    issue i s = .next (u.resp, takeResponse u) := by
  simp only [issue, h]

theorem issue_eq_next {i : Instr} {s t : State} {resp : List Byte} : issue i s = .next (resp, t) ↔
    ∃ u, sendCommand i (takeResponse s) = .next u ∧ resp = u.resp ∧ t = takeResponse u := by
  constructor
  · intro h
    cases hu : sendCommand i (takeResponse s) with
    | next u =>
      rw [issue_of_next hu] at h
      cases h
      exact ⟨u, rfl, rfl, rfl⟩
    | fault f => simp [issue, hu] at h
    | refused r => simp [issue, hu] at h
  · rintro ⟨u, hu, rfl, rfl⟩
    exact issue_of_next hu

/-- A run of the step in which an idle block is sent one command and its whole response is taken (R70, R72, R282). -/
theorem runSteps_send_take {s u : State} {bytes : List Byte} {d : Decoded} (hrx : s.rx = []) (hresp : s.resp = [])
    (hacts : s.hostActs = []) (hd : decode s.cfg.chunkMaxBytes bytes = some (d, [])) (hu : runDecoded d s = .next u) :
    runSteps (bytes.length + (1 + u.resp.length))
      { s with hostActs := bytes.map HostAct.put ++ (.wait :: List.replicate u.resp.length HostAct.take) } =
      .next (takeResponse u) := by
  have hstep (acts : List HostAct) : step { s with rx := s.rx ++ bytes, hostActs := .wait :: acts } =
      .next { u with hostActs := acts } := by
    rw [step_of_received hrx hresp hd, runDecoded_hostActs, hu]
  have htake := runSteps_take u.resp [] 0 u rfl
  obtain ⟨-, -, -, huacts⟩ := runDecoded_sends hu
  rw [List.append_nil, Nat.add_zero, runSteps_zero] at htake
  rw [runSteps_put, Nat.add_comm 1, runSteps_of_step (hstep _), htake, ← hacts, ← huacts, ← takeResponse_hostActs]

/-- Settles O60: after the takes of what was left over the block is idle. -/
theorem issueIsARunOfTheStep : Obligations.IssueIsARunOfTheStep := by
  intro s t i resp hrx hacts hfit h
  obtain ⟨u, hsend, rfl, rfl⟩ := issue_eq_next.mp h
  obtain ⟨d, hd⟩ := decode_encode_of_lenFits s.cfg.chunkMaxBytes hfit
  have hu : runDecoded d (takeResponse s) = .next u := by
    rw [← sendCommand_of_decode (s := takeResponse s) hfit hd]
    exact hsend
  obtain ⟨-, -, htaken, -⟩ := runDecoded_sends hu
  refine ⟨by rw [takeResponse_taken, htaken, takeResponse_taken], ?_⟩
  rw [runSteps_take s.resp _ _ s rfl]
  exact runSteps_send_take (s := takeResponse s) hrx rfl hacts hd hu

/-! ## DRAIN -/

/-- How many bits a miss leaves in the buffer at most (R137). -/
def retained (c : Config) : Nat :=
  match c.trimPolicy with
  | .retainF => c.frameBits
  | .retainFMinus1 => c.frameBits - 1

theorem sub_searchLimit_le_retained (c : Config) (len : Nat) : len - searchLimit c len ≤ retained c := by
  unfold searchLimit retained
  cases c.trimPolicy <;> simp only <;> omega

theorem raisedError_isHit (e : RaisedError) : isHit e.response.encode = false := by cases e <;> rfl

theorem outcomeResponse_isHit (start : Word) (o : FrameOutcome) : isHit (outcomeResponse start o).encode = true := by
  cases o <;> rfl

theorem inv_takeResponse {s : State} (hs : s.Inv) : (takeResponse s).Inv :=
  inv_of_sameRecord (by simp [SameRecord]) hs

/-- What an ATTEMPT that is a hit leaves for a DRAIN to go on with: a legal open block with a frame less, at least. -/
structure TakesFrame (s t : State) : Prop where
  open_before : s.Open
  open_after : t.Open
  inv : t.Inv
  cfg_eq : t.cfg = s.cfg
  shorter : t.buf.length + s.cfg.frameBits ≤ s.buf.length

/-- Everything an ATTEMPT sent by the host does, as a DRAIN sees it: a hit takes a frame from the buffer, and anything
else on an open stream trims it (R83, R137). -/
theorem issue_attempt {s : State} (hs : s.Inv) : ∃ resp t, issue .attempt s = .next (resp, t) ∧
    ((isHit resp = true ∧ TakesFrame s t) ∨
      (isHit resp = false ∧ (s.Open → t.buf.length ≤ retained s.cfg))) := by
  have hs' := inv_takeResponse hs
  obtain ⟨u, hu⟩ := execAttempt_next hs'.cfgOk_eq
  refine ⟨u.resp, takeResponse u, issue_of_next (by rw [sendCommand_attempt]; exact hu), ?_⟩
  have hinv : (takeResponse u).Inv := inv_takeResponse (effect_keeps_inv (exec_effect (i := .attempt) hu) hs')
  rcases execAttempt_cases hu with
    ⟨hok, rfl⟩ | ⟨-, hended, rfl⟩ | ⟨-, -, -, -, rfl⟩ | ⟨hok, hended, p, o, -, hfit, -, rfl⟩
  · exact .inr ⟨raisedError_isHit .formatError, fun ⟨hok', _⟩ => by simp [hok'] at hok⟩
  · exact .inr ⟨raisedError_isHit .streamEnded, fun ⟨_, hended'⟩ => by simp [hended'] at hended⟩
  · refine .inr ⟨rfl, fun _ => ?_⟩
    simpa using sub_searchLimit_le_retained s.cfg s.buf.length
  · have hhit := outcomeResponse_isHit (startWord (takeResponse s) p) o
    have hopen : (takeResponse s).Open := ⟨hok, hended⟩
    refine .inl ⟨by simpa using hhit, hopen, by simpa [State.Open] using hopen, hinv, by simp, ?_⟩
    simp only [takeResponse_cfg, takeResponse_buf] at hfit
    simp
    omega

/-- A DRAIN with more ATTEMPTs than frames fit the buffer ends, by induction on the ATTEMPTs: each hit takes a frame. -/
theorem drain_ends {fuel : Nat} {s : State} (hs : s.Inv) (hfuel : s.buf.length / s.cfg.frameBits < fuel) :
    ∃ t, drain fuel s = some (.next t) ∧ (s.Open → t.buf.length ≤ retained s.cfg) := by
  induction fuel generalizing s with
  | zero => exact absurd hfuel (Nat.not_lt_zero _)
  | succ fuel ih =>
    obtain ⟨resp, t, hissue, ⟨hhit, ⟨hok, -⟩, hopen, hinv, hcfg, hshorter⟩ | ⟨hmiss, hleft⟩⟩ := issue_attempt hs
    · obtain ⟨hsync, hsyncF, -⟩ := configWf_iff.mp (hs.cfgOk_eq ▸ hok)
      have hdiv : t.buf.length / s.cfg.frameBits + 1 ≤ s.buf.length / s.cfg.frameBits := by
        rw [← Nat.add_div_right _ (hsync.trans hsyncF)]
        exact Nat.div_le_div_right hshorter
      obtain ⟨v, hdrain, hv⟩ := ih hinv (by rw [hcfg]; omega)
      exact ⟨v, by simp only [drain, hissue, hhit, if_true, hdrain], fun _ => hcfg ▸ hv hopen⟩
    · exact ⟨t, by simp [drain, hissue, hmiss], hleft⟩

/-- Settles O53. -/
theorem drainEnds : Obligations.DrainEnds := by
  intro s hs
  obtain ⟨t, hdrain, hleft⟩ := drain_ends hs (Nat.lt_succ_self _)
  refine ⟨t, hdrain, fun hok hended => ?_⟩
  have hle := hleft ⟨hok, hended⟩
  unfold retained at hle
  cases hp : s.cfg.trimPolicy <;> simpa [hp] using hle

end Sys2Proof.Machine

/-!
PROOFS, the bitstream buffer family: what APPEND does (R100, R101), why chunk boundaries leave no trace (R102), and the
shift register as a search (R103, R104).
-/

namespace Sys2Proof.Machine

/-! ## APPEND -/

/-- Settles O32, outcome by outcome of APPEND, in the order of its checks. -/
theorem appendResult : Obligations.AppendResult := by
  intro s d
  obtain ⟨t, ht⟩ := execAppend_next d s
  have hexec : exec (.append d) s = .next t := ht
  rcases execAppend_cases ht with ⟨hok, rfl⟩ | ⟨hok, hended, rfl⟩ | ⟨hok, hended, hover, rfl⟩ | ⟨hok, hended, hfit, rfl⟩
  · rw [hexec, if_pos hok]
    rfl
  · rw [hexec, if_neg (by simp [hok]), if_pos hended]
    rfl
  · rw [hexec, if_neg (by simp [hok]), if_neg (by simp [hended]), if_pos hover]
    rfl
  · rw [hexec, if_neg (by simp [hok]), if_neg (by simp [hended]), if_neg (by omega)]
    rfl

/-- A payload that fits an open stream's buffer is appended whole (R100). -/
theorem exec_append_of_fits {s : State} {d : List Byte} (ho : s.Open)
    (hfit : s.buf.length + 8 * d.length ≤ s.cfg.bufCapBits) :
    exec (.append d) s = .next (respond .ok (appendBits (bitsOf d) s)) := by
  obtain ⟨hok, hended⟩ := ho
  exact (whenOpen_open _ hok hended).trans (if_neg (by omega))

/-! ## Consecutive APPENDs -/

/-- A response is known by its code (R78, R79). -/
theorem encode_ne_of_code_ne {r r' : Response} (h : r.code ≠ r'.code) : r.encode ≠ r'.encode := by
  intro heq
  have hhead := congrArg List.head? heq
  rw [encode_head, encode_head] at hhead
  exact h (Option.some.inj hhead)

/-- The state in which the host has had `d` appended and has read the OK (R100, R282). -/
def afterAppend (d : List Byte) (s : State) : State :=
  takeResponse (respond .ok (appendBits (bitsOf d) (takeResponse s)))

@[simp] theorem afterAppend_cfg (d : List Byte) (s : State) : (afterAppend d s).cfg = s.cfg := rfl
@[simp] theorem afterAppend_buf (d : List Byte) (s : State) : (afterAppend d s).buf = s.buf ++ bitsOf d := rfl

/-- An APPEND sent by the host is answered OK only on an open stream whose buffer has room for the payload; every other
outcome has another response, or none (R71, R75, R100). -/
theorem issue_append_ok {d : List Byte} {s t : State} (h : issue (.append d) s = .next (Response.ok.encode, t)) :
    s.Open ∧ s.buf.length + 8 * d.length ≤ s.cfg.bufCapBits ∧ t = afterAppend d s := by
  obtain ⟨u, hsend, hresp, rfl⟩ := issue_eq_next.mp h
  rw [sendCommand_append] at hsend
  split_ifs at hsend
  · obtain rfl := Host.Outcome.next.inj hsend
    exact absurd hresp (encode_ne_nil .ok)
  · rcases execAppend_cases hsend with ⟨-, rfl⟩ | ⟨-, -, rfl⟩ | ⟨-, -, -, rfl⟩ | ⟨hok, hended, hfit, rfl⟩
    · exact absurd hresp (encode_ne_of_code_ne (r' := .formatError) (by decide))
    · exact absurd hresp (encode_ne_of_code_ne (r' := .streamEnded) (by decide))
    · exact absurd hresp (encode_ne_of_code_ne (r' := .bufferOverflow) (by decide))
    · exact ⟨⟨hok, hended⟩, hfit, rfl⟩
  · obtain rfl := Host.Outcome.next.inj hsend
    exact absurd hresp (encode_ne_of_code_ne (r' := .illegalCommand _) (by simp [Response.code]))

/-- All that consecutive APPENDs answered OK say of the first of them (R102). -/
theorem appendAll_cons {d : List Byte} {ds : List (List Byte)} {s t : State} (h : appendAll (d :: ds) s = some t) :
    s.Open ∧ s.buf.length + 8 * d.length ≤ s.cfg.bufCapBits ∧ appendAll ds (afterAppend d s) = some t := by
  simp only [appendAll] at h
  split at h
  · rename_i resp u hissue
    split_ifs at h with hok
    obtain ⟨ho, hfit, rfl⟩ := issue_append_ok (hok ▸ hissue)
    exact ⟨ho, hfit, h⟩
  · cases h

/-- Chunks appended one after another fit as a whole, and their bits stand behind the buffer in order, by induction on
the chunks. -/
theorem appendAll_buf {chunks : List (List Byte)} {s t : State} (hle : s.buf.length ≤ s.cfg.bufCapBits)
    (h : appendAll chunks s = some t) :
    s.buf.length + 8 * chunks.flatten.length ≤ s.cfg.bufCapBits ∧ t.buf = s.buf ++ bitsOf chunks.flatten := by
  induction chunks generalizing s with
  | nil =>
    obtain rfl := Option.some.inj h
    simpa using hle
  | cons d ds ih =>
    obtain ⟨-, hfit, hrest⟩ := appendAll_cons h
    obtain ⟨hfits, hbuf⟩ := ih (by simpa using hfit) hrest
    simp only [afterAppend_cfg, afterAppend_buf, List.length_append, bitsOf_length] at hfits
    refine ⟨?_, by simp [hbuf]⟩
    rw [List.flatten_cons, List.length_append]
    omega

/-- Settles O35: the first OK says that the stream is open, and the last one that the whole sequence fits. -/
theorem chunkBoundariesLeaveNoTrace : Obligations.ChunkBoundariesLeaveNoTrace := by
  intro s t chunks hne h
  obtain ⟨d, ds, rfl⟩ := List.exists_cons_of_ne_nil hne
  obtain ⟨ho, hfit, -⟩ := appendAll_cons h
  obtain ⟨hfits, hbuf⟩ := appendAll_buf (by omega) h
  exact ⟨_, exec_append_of_fits ho hfits, hbuf.symm, rfl⟩

/-! ## The shift register -/

/-- A register that holds the last `w` bits of `done` holds, after one shift, the last `w` bits of `done` and the new
bit (R104). -/
theorem shiftIn_rtake (w : Nat) (done : List Bit) (b : Bit) :
    shiftIn w (done.rtake w) b = (done ++ [b]).rtake w := by
  calc shiftIn w (done.rtake w) b = (done.rtake w ++ [b]).rtake w := rfl
    _ = (done ++ [b]).rtake w := by
      cases w with
      | zero => simp
      | succ n => simp [List.rtake_eq_reverse_take_reverse, List.take_take]

/-- The last bits received are the pattern exactly when it occurs with its end at them (R103, R104). -/
theorem occursAt_iff_rtake {pat done : List Bit} (rest : List Bit) {p : Nat} (hp : p + pat.length = done.length) :
    occursAt pat (done ++ rest) p = true ↔ done.rtake pat.length = pat := by
  have hread : ((done ++ rest).drop p).take pat.length = done.rtake pat.length := by
    have hstart : done.length - pat.length = p := by omega
    rw [List.rtake, hstart, List.drop_append_of_le_length (by omega), List.take_left' (by simp; omega)]
  have hinside : p + pat.length ≤ (done ++ rest).length := by simp [hp]
  rw [occursAt_iff, hread, and_iff_right hinside]

/-- With the last bits of `done` in the register and no match of the window ending within `done`, the scan of the bits
that follow finds what `find` finds, by induction on them (R103, R104). -/
theorem shiftScan_eq_find {pat done rest : List Bit} {fromBit toBit : Nat}
    (hnone : ∀ q, fromBit ≤ q → q < toBit → q + pat.length ≤ done.length → occursAt pat (done ++ rest) q = false) :
    shiftScan pat fromBit toBit (done.rtake pat.length) done.length rest = find pat (done ++ rest) fromBit toBit := by
  induction rest generalizing done with
  | nil =>
    refine (find_none_iff.mpr fun q hq hqt => ?_).symm
    by_cases hfit : q + pat.length ≤ done.length
    · exact hnone q hq hqt hfit
    · simp [occursAt, hfit]
  | cons b rest ih =>
    have hsplit : done ++ b :: rest = (done ++ [b]) ++ rest := by simp
    rw [shiftScan, shiftIn_rtake, hsplit]
    rw [hsplit] at hnone
    split_ifs with htest
    · obtain ⟨hreg, hlo, hhi⟩ := htest
      have hend : done.length + 1 - pat.length + pat.length = (done ++ [b]).length := by simp; omega
      refine (find_some_iff.mpr ⟨by omega, by omega, (occursAt_iff_rtake rest hend).mpr hreg, ?_⟩).symm
      exact fun q hq hqp => hnone q hq (by omega) (by omega)
    · have hscan := ih (done := done ++ [b]) fun q hq hqt hfit => ?_
      · simpa using hscan
      rcases Nat.eq_or_lt_of_le hfit with hend | hbefore
      · rw [Bool.eq_false_iff]
        intro hocc
        rw [List.length_append, List.length_singleton] at hend
        exact htest ⟨(occursAt_iff_rtake rest (by simpa using hend)).mp hocc, by omega, by omega⟩
      · exact hnone q hq hqt (by simpa [Nat.lt_succ_iff] using hbefore)

/-- Settles O43: the register starts empty, and a pattern that is not empty ends at no bit before the first. -/
theorem shiftRegisterFindsTheSame : Obligations.ShiftRegisterFindsTheSame := by
  intro pat buf fromBit toBit hpat
  have hscan := shiftScan_eq_find (pat := pat) (done := []) (rest := buf) (fromBit := fromBit) (toBit := toBit)
    fun q _ _ hfit => absurd hfit (by rw [List.length_nil]; omega)
  simpa [shiftFind, List.rtake] using hscan

end Sys2Proof.Machine

/-!
PROOFS, the frame synchroniser family: what an ATTEMPT does when it misses and when it hits (R130 to R135), what it
takes from the buffer (R136 to R139), what the trailer of a frame says (R141), and why the frames of a stream do not
depend on when the ATTEMPTs are sent (R138, R142).
-/

namespace Sys2Proof.Machine

/-! ## Where the sync word occurs -/

/-- What is appended behind a match, or behind where one could stand, changes nothing there (R103). -/
theorem occursAt_append {pat buf : List Bit} (more : List Bit) {p : Nat} (h : p + pat.length ≤ buf.length) :
    occursAt pat (buf ++ more) p = occursAt pat buf p := by
  have hread : ((buf ++ more).drop p).take pat.length = (buf.drop p).take pat.length := by
    rw [List.drop_append_of_le_length (by omega), List.take_append_of_le_length (by rw [List.length_drop]; omega)]
  have hfit : p + pat.length ≤ (buf ++ more).length := by rw [List.length_append]; omega
  rw [Bool.eq_iff_iff, occursAt_iff, occursAt_iff, hread, iff_true_intro hfit, iff_true_intro h]

/-- The bits in front of a buffer only shift its offsets (R106). -/
theorem occursAt_drop (pat : List Bit) {buf : List Bit} {n : Nat} (h : n ≤ buf.length) (p : Nat) :
    occursAt pat (buf.drop n) p = occursAt pat buf (n + p) := by
  have hfit : p + pat.length ≤ (buf.drop n).length ↔ n + p + pat.length ≤ buf.length := by
    rw [List.length_drop]; omega
  rw [Bool.eq_iff_iff, occursAt_iff, occursAt_iff, List.drop_drop, hfit]

/-- Inside the window every sync word lies in the buffer, so only its bits count (R103, R131). -/
theorem occursAt_iff_of_lt_searchLimit {c : Config} {buf : List Bit} {p : Nat} (hc : configWf c = true)
    (h : p < searchLimit c buf.length) :
    occursAt c.syncWord buf p = true ↔ (buf.drop p).take c.syncW = c.syncWord := by
  obtain ⟨-, hsyncF, hsync, -⟩ := configWf_iff.mp hc
  have hframe := frame_fits_of_lt_searchLimit h
  rw [occursAt_iff, hsync, and_iff_right (by omega)]

theorem hitsAt_iff {s : State} {p : Nat} (hc : configWf s.cfg = true) :
    HitsAt s p ↔ p < searchLimit s.cfg s.buf.length ∧ (s.buf.drop p).take s.cfg.syncW = s.cfg.syncWord ∧
      ∀ q < p, (s.buf.drop q).take s.cfg.syncW ≠ s.cfg.syncWord := by
  refine and_congr_right fun hp => and_congr (occursAt_iff_of_lt_searchLimit hc hp) (forall₂_congr fun q hq => ?_)
  rw [← Bool.not_eq_true, occursAt_iff_of_lt_searchLimit hc (hq.trans hp)]

theorem misses_iff {s : State} (hc : configWf s.cfg = true) :
    Misses s ↔ ∀ q < searchLimit s.cfg s.buf.length, (s.buf.drop q).take s.cfg.syncW ≠ s.cfg.syncWord := by
  refine forall₂_congr fun q hq => ?_
  rw [← Bool.not_eq_true, occursAt_iff_of_lt_searchLimit hc hq]

theorem find_eq_some_iff_hitsAt {s : State} {p : Nat} :
    find s.cfg.syncWord s.buf 0 (searchLimit s.cfg s.buf.length) = some p ↔ HitsAt s p := by
  simp [find_some_iff, HitsAt]

theorem find_eq_none_iff_misses {s : State} :
    find s.cfg.syncWord s.buf 0 (searchLimit s.cfg s.buf.length) = none ↔ Misses s := by
  simp [find_none_iff, Misses]

/-- Settles O42: the window ends where a frame would no longer fit. -/
theorem hitNeedsTheWholeFrame : Obligations.HitNeedsTheWholeFrame := by
  rintro s p ⟨hp, -⟩
  unfold searchLimit at hp
  cases hpolicy : s.cfg.trimPolicy <;> simp only [hpolicy] at hp ⊢ <;> omega

/-! ## The two ends of an ATTEMPT -/

/-- The outcome that the spec's formulas give a raw frame (R160, R183, R200). -/
def frameOutcome (c : Config) (raw : List Bit) : FrameOutcome :=
  if crcComputed c (cleartext c raw) ≠ crcCarried c (cleartext c raw) then
    .mismatch (crcComputed c (cleartext c raw)) (crcCarried c (cleartext c raw))
  else .packet (fieldWords c (cleartext c raw))

theorem processFrame_eq_frameOutcome {c : Config} {raw : List Bit} (hc : configWf c = true)
    (hr : raw.length = c.frameBits) : processFrame c raw = .ok (frameOutcome c raw) :=
  processFrame_wf hc hr

theorem frameOutcome_of_ne {c : Config} {raw : List Bit}
    (h : crcComputed c (cleartext c raw) ≠ crcCarried c (cleartext c raw)) :
    frameOutcome c raw = .mismatch (crcComputed c (cleartext c raw)) (crcCarried c (cleartext c raw)) := if_pos h

theorem frameOutcome_of_eq {c : Config} {raw : List Bit}
    (h : crcComputed c (cleartext c raw) = crcCarried c (cleartext c raw)) :
    frameOutcome c raw = .packet (fieldWords c (cleartext c raw)) := if_neg (not_not_intro h)

/-- The bits that the hit path extracts at offset `p` (R132). -/
def rawFrame (s : State) (p : Nat) : List Bit := (s.buf.drop p).take s.cfg.frameBits

/-- A hit leaves the frame in the buffer, whole (R131, R132). -/
theorem HitsAt.frame_fits {s : State} {p : Nat} (h : HitsAt s p) : p + s.cfg.frameBits ≤ s.buf.length :=
  frame_fits_of_lt_searchLimit h.1

theorem HitsAt.rawFrame_length {s : State} {p : Nat} (h : HitsAt s p) : (rawFrame s p).length = s.cfg.frameBits :=
  slice_length (slice_of_le h.frame_fits)

theorem searchLimit_le_of_wf {s : State} (hc : configWf s.cfg = true) :
    searchLimit s.cfg s.buf.length ≤ s.buf.length := by
  obtain ⟨hsync, hsyncF, -⟩ := configWf_iff.mp hc
  exact searchLimit_le s.cfg s.buf.length (hsync.trans hsyncF)

theorem exec_attempt_of_misses {s : State} (hc : configWf s.cfg = true) (ho : s.Open) (h : Misses s) :
    exec .attempt s = .next (respond .noFrame (countNoSync (afterMiss s))) := by
  obtain ⟨hok, hended⟩ := ho
  calc exec .attempt s = attemptOnce s := whenOpen_open _ hok hended
    _ = missPath (searchLimit s.cfg s.buf.length) s := by simp only [attemptOnce, find_eq_none_iff_misses.mpr h]
    _ = .next (respond .noFrame (countNoSync (afterMiss s))) := missPath_eq (searchLimit_le_of_wf hc)

theorem exec_attempt_of_hitsAt {s : State} {p : Nat} (hc : configWf s.cfg = true) (ho : s.Open) (h : HitsAt s p) :
    exec .attempt s =
      .next (finishFrame (startWord s p) (frameOutcome s.cfg (rawFrame s p)) (afterHit s p)) := by
  obtain ⟨hok, hended⟩ := ho
  calc exec .attempt s = attemptOnce s := whenOpen_open _ hok hended
    _ = hitPath p s := by simp only [attemptOnce, find_eq_some_iff_hitsAt.mpr h]
    _ = _ := by
      rw [hitPath_eq h.frame_fits, ← rawFrame, processFrame_eq_frameOutcome hc h.rawFrame_length]

/-- Everything an ATTEMPT that passes its checks can do, in the terms of the statements: it misses, or it hits at the
lowest sync word of its window. -/
theorem attempt_misses_or_hits {s t : State} (hc : configWf s.cfg = true) (ho : s.Open)
    (h : exec .attempt s = .next t) :
    (Misses s ∧ t = respond .noFrame (countNoSync (afterMiss s))) ∨
    (∃ p, HitsAt s p ∧ t = finishFrame (startWord s p) (frameOutcome s.cfg (rawFrame s p)) (afterHit s p)) := by
  rcases exec_attempt_open ho h with ⟨hnone, ht⟩ | ⟨p, o, hsome, -⟩
  · exact .inl ⟨find_eq_none_iff_misses.mp hnone, ht⟩
  · have hhit := find_eq_some_iff_hitsAt.mp hsome
    rw [exec_attempt_of_hitsAt hc ho hhit] at h
    exact .inr ⟨p, hhit, (Host.Outcome.next.inj h).symm⟩

/-- The check passed, so every condition of R231 holds (R25). -/
theorem configWf_of_inv {s : State} (hs : s.Inv) (hok : s.cfgOk = true) : configWf s.cfg = true :=
  hs.cfgOk_eq ▸ hok

/-- Settles O36: inside the window a sync word occurs exactly where the buffer's bits are its bits. -/
theorem attemptMissResult : Obligations.AttemptMissResult := by
  intro s lim hs hok hended hlim hnone
  have hc := configWf_of_inv hs hok
  obtain rfl : lim = searchLimit s.cfg s.buf.length := hlim
  rw [exec_attempt_of_misses hc ⟨hok, hended⟩ ((misses_iff hc).mpr hnone)]
  rfl

/-! ## The bytes of a hit's response -/

/-- The CRC's input, byte by byte (R16, R181). -/
theorem bytesOf_take {s : List Bit} {n : Nat} (h : 8 * n ≤ s.length) :
    bytesOf (s.take (8 * n)) = (List.range n).map fun k => BitVec.ofNat 8 (be ((s.drop (8 * k)).take 8)) := by
  have hcount : (s.take (8 * n)).length / 8 = n := by rw [List.length_take]; omega
  rw [bytesOf, hcount]
  refine List.map_congr_left fun k hk => ?_
  have hread : ((s.take (8 * n)).drop (8 * k)).take 8 = (s.drop (8 * k)).take 8 := by
    rw [List.mem_range] at hk
    rw [List.drop_take, List.take_take, Nat.min_eq_left (by omega)]
  rw [byteAt, hread]

theorem HitsAt.cleartext_frame_length {s : State} {p : Nat} (hc : configWf s.cfg = true) (h : HitsAt s p) :
    (cleartext s.cfg (rawFrame s p)).length = s.cfg.frameBits := by
  obtain ⟨-, -, -, hmask, -⟩ := configWf_iff.mp hc
  exact cleartext_length hmask h.rawFrame_length

/-- The computed CRC of the frame at a hit, with its input written out byte by byte (R181). -/
theorem HitsAt.crcComputed_eq {s : State} {p : Nat} (hc : configWf s.cfg = true) (h : HitsAt s p) :
    crcComputed s.cfg (cleartext s.cfg (rawFrame s p)) =
      crc16 s.cfg ((List.range s.cfg.crcCoverBytes).map fun k =>
        BitVec.ofNat 8 (be (((cleartext s.cfg (rawFrame s p)).drop (8 * k)).take 8))) := by
  obtain ⟨-, -, -, -, -, hcover, -⟩ := configWf_iff.mp hc
  rw [crcComputed, bytesOf_take (by rw [h.cleartext_frame_length hc]; exact hcover)]

/-- A position is reported modulo 2^32 (R22, R134). -/
theorem startWord_eq_mod (s : State) (p : Nat) : startWord s p = BitVec.ofNat 32 ((s.posHead + p) % 2 ^ 32) := by
  apply BitVec.eq_of_toNat_eq
  simp [startWord]

theorem fieldWords_flatMap_be32 (c : Config) (clr : List Bit) :
    (fieldWords c clr).flatMap be32 = c.fieldTable.flatMap fun e =>
      be32 (BitVec.ofNat 32 (fieldValue e.order ((clr.drop e.off).take e.width))) := by
  rw [fieldWords, List.flatMap_map]

theorem fieldWords_length_le {c : Config} (hc : configWf c = true) (clr : List Bit) :
    (fieldWords c clr).length ≤ 16 := by
  obtain ⟨-, -, -, -, -, -, -, htab, -⟩ := configWf_iff.mp hc
  rw [fieldWords, List.length_map]
  exact (fieldTableWf_length htab).2

/-- Settles O37: the frame at the hit is whole, so the spec's formulas give its CRCs, which differ. -/
theorem attemptCrcMismatchResult : Obligations.AttemptCrcMismatchResult := by
  rintro s p lim clr computed rx hs hok hended hlim hp hsync hleast rfl rfl rfl hne
  have hc := configWf_of_inv hs hok
  obtain rfl : lim = searchLimit s.cfg s.buf.length := hlim
  have hhit : HitsAt s p := (hitsAt_iff hc).mpr ⟨hp, hsync, hleast⟩
  have hcrc := hhit.crcComputed_eq hc
  have hout := frameOutcome_of_ne (hcrc.trans_ne hne)
  rw [exec_attempt_of_hitsAt hc ⟨hok, hended⟩ hhit, hout, finishFrame, respond, crcMismatch_encode, hcrc,
    startWord_eq_mod]
  rfl

/-- Settles O38: the CRCs agree, so the fields are decoded, at most 16 of them. -/
theorem attemptPacketResult : Obligations.AttemptPacketResult := by
  rintro s p lim clr hs hok hended hlim hp hsync hleast rfl heq
  have hc := configWf_of_inv hs hok
  obtain rfl : lim = searchLimit s.cfg s.buf.length := hlim
  have hhit : HitsAt s p := (hitsAt_iff hc).mpr ⟨hp, hsync, hleast⟩
  have hout := frameOutcome_of_eq ((hhit.crcComputed_eq hc).trans heq)
  rw [exec_attempt_of_hitsAt hc ⟨hok, hended⟩ hhit, hout, finishFrame, respond,
    packet_encode (fieldWords_length_le hc _), startWord_eq_mod, fieldWords_flatMap_be32, fieldWords, List.length_map]
  rfl

/-! ## What an ATTEMPT takes from the buffer -/

/-- Settles O40: a hit at `p` takes `p + F` bits, a miss the bits of its window. -/
theorem attemptsMakeProgress : Obligations.AttemptsMakeProgress := by
  intro s t hs hok hended h
  have hc := configWf_of_inv hs hok
  rcases attempt_misses_or_hits hc ⟨hok, hended⟩ h with ⟨-, rfl⟩ | ⟨p, hhit, rfl⟩
  · refine ⟨0x10#8, _, rfl, by simp, fun _ => ?_⟩
    have hle := searchLimit_le_of_wf hc
    simp only [respond_buf, countNoSync_buf, afterMiss_buf, List.length_drop]
    unfold searchLimit at hle ⊢
    cases hpolicy : s.cfg.trimPolicy <;> simp only [hpolicy] at hle ⊢ <;> omega
  · have hfit := hhit.frame_fits
    obtain ⟨more, hmore⟩ := List.head?_eq_some_iff.mp (encode_head (outcomeResponse (startWord s p)
      (frameOutcome s.cfg (rawFrame s p))))
    refine ⟨_, more, by rw [finishFrame_resp, hmore, afterHit_resp], fun _ => ?_, fun hcode => ?_⟩
    · rw [finishFrame_buf, afterHit_buf, List.length_drop]
      omega
    · cases hout : frameOutcome s.cfg (rawFrame s p) <;> simp [hout, outcomeResponse, Response.code] at hcode

/-- The bits that an ATTEMPT removes from the head of the buffer: every match among them is in the frame extracted. -/
theorem attempt_drops {s t : State} (hc : configWf s.cfg = true) (ho : s.Open) (h : exec .attempt s = .next t) :
    ∃ n ≤ s.buf.length, t.buf = s.buf.drop n ∧ t.cfg = s.cfg ∧
      ∀ a < n, occursAt s.cfg.syncWord s.buf a = true → ∃ p, HitsAt s p ∧ p ≤ a ∧ a < p + s.cfg.frameBits := by
  rcases attempt_misses_or_hits hc ho h with ⟨hmiss, rfl⟩ | ⟨p, hhit, rfl⟩
  · refine ⟨searchLimit s.cfg s.buf.length, searchLimit_le_of_wf hc, rfl, rfl, fun a ha hocc => ?_⟩
    simp [hmiss a ha] at hocc
  · refine ⟨p + s.cfg.frameBits, hhit.frame_fits, by simp, by simp, fun a ha hocc => ⟨p, hhit, ?_, ha⟩⟩
    obtain ⟨-, -, hleast⟩ := hhit
    by_contra hbefore
    simp [hleast a (by omega)] at hocc

/-- Settles O41: the offsets that are kept are those of the buffer behind the removed bits. -/
theorem noSyncWordIsLost : Obligations.NoSyncWordIsLost := by
  intro s t hs hok hended h
  obtain ⟨n, hn, hbuf, hcfg, hlost⟩ := attempt_drops (configWf_of_inv hs hok) ⟨hok, hended⟩ h
  have hremoved : s.buf.length - t.buf.length = n := by rw [hbuf, List.length_drop]; omega
  rw [hremoved]
  refine ⟨hlost, fun a ha => ?_⟩
  rw [hcfg, hbuf, occursAt_drop _ hn, Nat.add_sub_cancel' ha]

/-! ## The trailer -/

/-- A read that ends by bit `n` sees the first `n` bits alone. -/
theorem drop_take_congr {s t : List Bit} {n a w : Nat} (h : s.take n = t.take n) (hle : a + w ≤ n) :
    (s.drop a).take w = (t.drop a).take w := by
  have hread (u : List Bit) : (u.drop a).take w = ((u.take n).drop a).take w := by
    rw [List.drop_take, List.take_take, Nat.min_eq_left (by omega)]
  rw [hread s, hread t, h]

/-- The dewhitener works bit by bit, so it keeps the agreement of two frames (R160). -/
theorem cleartext_take_congr (c : Config) {raw₁ raw₂ : List Bit} {n : Nat} (h : raw₁.take n = raw₂.take n) :
    (cleartext c raw₁).take n = (cleartext c raw₂).take n := by
  simp only [cleartext, xorBits, List.take_zipWith, h]

/-- The pipeline reads the CRC's input, the CRC field and the fields of the table, and nothing else of a frame (R181,
R182, R200): two frames that agree as far as these reach have one outcome. -/
theorem frameOutcome_congr {c : Config} {raw₁ raw₂ : List Bit} {n : Nat} (h : raw₁.take n = raw₂.take n)
    (hcover : 8 * c.crcCoverBytes ≤ n) (hfield : c.crcFieldOffset + 16 ≤ n)
    (htable : ∀ e ∈ c.fieldTable, e.off + e.width ≤ n) : frameOutcome c raw₁ = frameOutcome c raw₂ := by
  have hclr := cleartext_take_congr c h
  have hcomputed : crcComputed c (cleartext c raw₁) = crcComputed c (cleartext c raw₂) := by
    have hread := drop_take_congr (a := 0) hclr (by omega : 0 + 8 * c.crcCoverBytes ≤ n)
    rw [List.drop_zero, List.drop_zero] at hread
    rw [crcComputed, crcComputed, hread]
  have hcarried : crcCarried c (cleartext c raw₁) = crcCarried c (cleartext c raw₂) := by
    rw [crcCarried, crcCarried, drop_take_congr hclr hfield]
  have hwords : fieldWords c (cleartext c raw₁) = fieldWords c (cleartext c raw₂) :=
    List.map_congr_left fun e he => by rw [drop_take_congr hclr (htable e he)]
  rw [frameOutcome, frameOutcome, hcomputed, hcarried, hwords]

/-- Settles O52: the CRC field, bits 192 to 207, is the last that the default parameters have the pipeline read. -/
theorem trailerIsIgnored : Obligations.TrailerIsIgnored := by
  intro sync mask chunkMax cap raw₁ raw₂ hc hlen₁ hlen₂ h
  have htable : ∀ e ∈ defaultFieldTable, e.off + e.width ≤ 208 := by decide
  rw [processFrame_eq_frameOutcome hc hlen₁, processFrame_eq_frameOutcome hc hlen₂,
    frameOutcome_congr h (by decide : 8 * 24 ≤ 208) (Nat.le_refl 208) htable]

/-! ## The frames that a stream fixes -/

/-- A search may start later when nothing stands in between (R103). -/
theorem find_skip {pat buf : List Bit} {a b limit : Nat} (hab : a ≤ b)
    (h : ∀ q, a ≤ q → q < b → occursAt pat buf q = false) : find pat buf a limit = find pat buf b limit := by
  refine Option.ext fun p => ?_
  rw [find_some_iff, find_some_iff]
  constructor
  · rintro ⟨hap, hlim, hocc, hleast⟩
    refine ⟨?_, hlim, hocc, fun q hq hqp => hleast q (by omega) hqp⟩
    by_contra hpb
    simp [h p hap (by omega)] at hocc
  · rintro ⟨hbp, hlim, hocc, hleast⟩
    refine ⟨by omega, hlim, hocc, fun q hq hqp => ?_⟩
    rcases Nat.lt_or_ge q b with hqb | hbq
    · exact h q hq hqb
    · exact hleast q hbq hqp

theorem frameStarts_skip {sync stream : List Bit} {F a b : Nat} (fuel : Nat) (hab : a ≤ b)
    (h : ∀ q, a ≤ q → q < b → occursAt sync stream q = false) :
    frameStarts sync F stream fuel a = frameStarts sync F stream fuel b := by
  cases fuel with
  | zero => rfl
  | succ fuel => simp only [frameStarts, find_skip hab h]

theorem frameStarts_of_find {sync stream : List Bit} {F pos q : Nat} (fuel : Nat)
    (h : find sync stream pos stream.length = some q) :
    frameStarts sync F stream (fuel + 1) pos = q :: frameStarts sync F stream fuel (q + F) := by
  simp only [frameStarts, h]

theorem le_of_mem_frameStarts {sync stream : List Bit} {F fuel pos q : Nat}
    (h : q ∈ frameStarts sync F stream fuel pos) : pos ≤ q := by
  induction fuel generalizing pos with
  | zero => simp [frameStarts] at h
  | succ fuel ih =>
    cases hfind : find sync stream pos stream.length with
    | none => simp [frameStarts, hfind] at h
    | some r =>
      obtain ⟨hpos, -⟩ := find_some_iff.mp hfind
      rw [frameStarts_of_find fuel hfind, List.mem_cons] at h
      rcases h with rfl | hlater
      · exact hpos
      · have hnext := ih hlater
        omega

/-- The response to a frame of the stream is the hit path's, at the frame's own position (R135). -/
theorem frameResponse_eq (c : Config) (stream : List Bit) (q : Nat) : frameResponse c stream q =
    (outcomeResponse (BitVec.ofNat 32 q) (frameOutcome c ((stream.drop q).take c.frameBits))).encode := by
  simp only [frameResponse, frameOutcome]
  split <;> rfl

theorem frameResponse_append {c : Config} {stream : List Bit} (more : List Bit) {q : Nat}
    (h : q < searchLimit c stream.length) : frameResponse c (stream ++ more) q = frameResponse c stream q := by
  have hfit := frame_fits_of_lt_searchLimit h
  rw [frameResponse_eq, frameResponse_eq, List.drop_append_of_le_length (by omega),
    List.take_append_of_le_length (by rw [List.length_drop]; omega)]

/-- The window of a buffer that has lost `n` bits ends where it ended before (R131). -/
theorem searchLimit_sub (c : Config) {len n : Nat} (h : n ≤ len) : searchLimit c (len - n) = searchLimit c len - n := by
  unfold searchLimit
  cases c.trimPolicy <;> simp only <;> omega

theorem searchLimit_mono (c : Config) {a b : Nat} (h : a ≤ b) : searchLimit c a ≤ searchLimit c b := by
  unfold searchLimit
  cases c.trimPolicy <;> simp only <;> omega

/-! ## What one command of a run takes from the buffer -/

/-- `TakesBits n s t`: from `s` to `t` the cursor passes `n` bits of the buffer, and the block stays as open as it was;
nothing is said of the counters and the channels. -/
structure TakesBits (n : Nat) (s t : State) : Prop where
  cfg_eq : t.cfg = s.cfg
  cfgOk_eq : t.cfgOk = s.cfgOk
  ended_eq : t.ended = s.ended
  buf_eq : t.buf = s.buf.drop n
  posHead_eq : t.posHead = s.posHead + n

theorem TakesBits.open_after {n : Nat} {s t : State} (h : TakesBits n s t) (ho : s.Open) : t.Open := by
  obtain ⟨hok, hended⟩ := ho
  exact ⟨h.cfgOk_eq.trans hok, h.ended_eq.trans hended⟩

/-- A raised error, once read, has taken nothing (R255). -/
theorem takesBits_raiseError (e : RaisedError) (s : State) :
    TakesBits 0 s (takeResponse (raiseError e (takeResponse s))) := ⟨rfl, rfl, rfl, rfl, rfl⟩

theorem issue_status_takesBits {s t : State} {resp : List Byte} (h : issue .status s = .next (resp, t)) :
    isHit resp = false ∧ TakesBits 0 s t := by
  rw [issue_status] at h
  cases h
  exact ⟨rfl, rfl, rfl, rfl, rfl, rfl⟩

/-- An APPEND that is not answered OK answers no hit and takes nothing (R71, R75, R100, R255). -/
theorem issue_append_takesBits {d : List Byte} {s t : State} {resp : List Byte}
    (h : issue (.append d) s = .next (resp, t)) (hne : resp ≠ Response.ok.encode) :
    isHit resp = false ∧ TakesBits 0 s t := by
  obtain ⟨u, hsend, rfl, rfl⟩ := issue_eq_next.mp h
  rw [sendCommand_append] at hsend
  split_ifs at hsend
  · obtain rfl := Host.Outcome.next.inj hsend
    exact ⟨rfl, rfl, rfl, rfl, rfl, by simp⟩
  · cases exec_effect hsend with
    | raised _ e => exact ⟨raisedError_isHit e, takesBits_raiseError e s⟩
    | appended => exact absurd rfl hne
  · obtain rfl := Host.Outcome.next.inj hsend
    exact ⟨raisedError_isHit (.illegalCommand _), takesBits_raiseError _ s⟩

/-- Everything an ATTEMPT sent by the host to an open block does to the stream, and what is read of it (R135). -/
theorem issue_attempt_misses_or_hits {s t : State} {resp : List Byte} (hc : configWf s.cfg = true) (ho : s.Open)
    (h : issue .attempt s = .next (resp, t)) :
    (Misses s ∧ resp = Response.noFrame.encode ∧ TakesBits (searchLimit s.cfg s.buf.length) s t) ∨
    (∃ p, HitsAt s p ∧ resp = (outcomeResponse (startWord s p) (frameOutcome s.cfg (rawFrame s p))).encode ∧
      TakesBits (p + s.cfg.frameBits) s t) := by
  obtain ⟨u, hsend, rfl, rfl⟩ := issue_eq_next.mp h
  rw [sendCommand_attempt] at hsend
  rcases attempt_misses_or_hits (s := takeResponse s) hc ho hsend with ⟨hmiss, rfl⟩ | ⟨p, hhit, rfl⟩
  · exact .inl ⟨hmiss, rfl, rfl, rfl, rfl, rfl, rfl⟩
  · exact .inr ⟨p, hhit, by rw [finishFrame_resp]; rfl, by simp, by simp, by simp, by simp, by simp⟩

/-! ## The cursor of a run -/

/-- `Swept c stream s starts`: an open block that has been sent `stream` has reported the frames that begin at `starts`,
and they are the frames that the stream fixes before its cursor, whatever is appended later (R142). -/
structure Swept (c : Config) (stream : List Bit) (s : State) (starts : List Nat) : Prop where
  cfg_eq : s.cfg = c
  isOpen : s.Open
  posHead_le : s.posHead ≤ stream.length
  buf_eq : s.buf = stream.drop s.posHead
  /-- No frame is reported before the window has reached its start (R139). -/
  starts_lt : ∀ q ∈ starts, q < searchLimit c stream.length
  /-- The frames reported are no more than the bits passed. -/
  count_le : starts.length ≤ s.posHead
  frames : ∀ more fuel, frameStarts c.syncWord c.frameBits (stream ++ more) (starts.length + fuel) 0 =
    starts ++ frameStarts c.syncWord c.frameBits (stream ++ more) fuel s.posHead

section

variable {c : Config} {stream : List Bit} {s t : State} {starts : List Nat}

theorem swept_powerOn (hc : configWf c = true) : Swept c [] (State.powerOn c) [] where
  cfg_eq := rfl
  isOpen := ⟨hc, rfl⟩
  posHead_le := Nat.le_refl 0
  buf_eq := rfl
  starts_lt := nofun
  count_le := Nat.le_refl 0
  frames := fun more fuel => by simp

theorem Swept.buf_length (h : Swept c stream s starts) : s.buf.length = stream.length - s.posHead := by
  rw [h.buf_eq, List.length_drop]

/-- The window in the buffer and the window in the stream end at the same bit (R131). -/
theorem Swept.searchLimit_eq (h : Swept c stream s starts) :
    searchLimit c s.buf.length = searchLimit c stream.length - s.posHead := by
  rw [h.buf_length, searchLimit_sub c h.posHead_le]

/-- Inside the window the buffer shows where the sync word occurs in the stream, whatever is appended later (R138). -/
theorem Swept.occursAt_eq (hc : configWf c = true) (h : Swept c stream s starts) (more : List Bit) {p : Nat}
    (hp : p < searchLimit c s.buf.length) :
    occursAt c.syncWord (stream ++ more) (s.posHead + p) = occursAt c.syncWord s.buf p := by
  obtain ⟨-, hsyncF, hsync, -⟩ := configWf_iff.mp hc
  have hfit := frame_fits_of_lt_searchLimit hp
  have hlen := h.buf_length
  have hle := h.posHead_le
  rw [occursAt_append more (by omega), h.buf_eq, occursAt_drop _ h.posHead_le]

/-- The cursor passes `n` bits, in which the stream fixes the frames that begin at `found`. -/
theorem Swept.takesBits {found : List Nat} {n : Nat} (h : Swept c stream s starts) (ht : TakesBits n s t)
    (hn : n ≤ s.buf.length) (hlt : ∀ q ∈ found, q < searchLimit c stream.length) (hcount : found.length ≤ n)
    (hfound : ∀ more fuel, frameStarts c.syncWord c.frameBits (stream ++ more) (found.length + fuel) s.posHead =
      found ++ frameStarts c.syncWord c.frameBits (stream ++ more) fuel (s.posHead + n)) :
    Swept c stream t (starts ++ found) where
  cfg_eq := ht.cfg_eq.trans h.cfg_eq
  isOpen := ht.open_after h.isOpen
  posHead_le := by
    have hlen := h.buf_length
    have hle := h.posHead_le
    rw [ht.posHead_eq]
    omega
  buf_eq := by rw [ht.buf_eq, ht.posHead_eq, h.buf_eq, List.drop_drop]
  starts_lt := fun q hq => (List.mem_append.mp hq).elim (h.starts_lt q) (hlt q)
  count_le := by
    have hold := h.count_le
    rw [ht.posHead_eq, List.length_append]
    omega
  frames := fun more fuel => by
    rw [List.length_append, Nat.add_assoc, h.frames, hfound, ht.posHead_eq, List.append_assoc]

/-- A command that takes nothing from the buffer leaves the sweep where it was. -/
theorem Swept.stays (h : Swept c stream s starts) (ht : TakesBits 0 s t) : Swept c stream t starts := by
  simpa using h.takesBits (found := []) ht (Nat.zero_le _) nofun (Nat.le_refl 0) fun more fuel => by simp

/-- A miss sweeps its window, in which no frame begins (R133, R138). -/
theorem Swept.misses (hc : configWf c = true) (h : Swept c stream s starts) (hmiss : Misses s)
    (ht : TakesBits (searchLimit s.cfg s.buf.length) s t) : Swept c stream t starts := by
  obtain rfl := h.cfg_eq
  have hnone (more : List Bit) (q : Nat) (hq : s.posHead ≤ q) (hlim : q < s.posHead + searchLimit s.cfg s.buf.length) :
      occursAt s.cfg.syncWord (stream ++ more) q = false := by
    obtain ⟨p, rfl⟩ := Nat.exists_eq_add_of_le hq
    have hp : p < searchLimit s.cfg s.buf.length := by omega
    rw [h.occursAt_eq hc more hp, hmiss p hp]
  simpa using h.takesBits (found := []) ht (searchLimit_le_of_wf hc) nofun (Nat.zero_le _) fun more fuel => by
    simpa using frameStarts_skip fuel (Nat.le_add_right _ _) (hnone more)

/-- A miss moves the cursor to the end of the stream's window, or leaves it where it is beyond that (R133). -/
theorem Swept.window_passed (h : Swept c stream s starts)
    (ht : TakesBits (searchLimit s.cfg s.buf.length) s t) : searchLimit c stream.length ≤ t.posHead := by
  have hlim := h.searchLimit_eq
  rw [ht.posHead_eq, h.cfg_eq]
  omega

/-- A hit at offset `p` of the buffer reports the next frame that the stream fixes (R132, R142). -/
theorem Swept.hits {p : Nat} (hc : configWf c = true) (h : Swept c stream s starts) (hhit : HitsAt s p)
    (ht : TakesBits (p + s.cfg.frameBits) s t) : Swept c stream t (starts ++ [s.posHead + p]) := by
  obtain rfl := h.cfg_eq
  obtain ⟨hsync, hsyncF, -⟩ := configWf_iff.mp hc
  have hfit := hhit.frame_fits
  obtain ⟨hp, hocc, hleast⟩ := hhit
  have hlen := h.buf_length
  have hlim := h.searchLimit_eq
  have hfind (more : List Bit) :
      find s.cfg.syncWord (stream ++ more) s.posHead (stream ++ more).length = some (s.posHead + p) := by
    refine find_some_iff.mpr ⟨Nat.le_add_right _ _, by rw [List.length_append]; omega, ?_, fun q hq hqp => ?_⟩
    · rw [h.occursAt_eq hc more hp, hocc]
    · obtain ⟨r, rfl⟩ := Nat.exists_eq_add_of_le hq
      rw [h.occursAt_eq hc more (by omega), hleast r (by omega)]
  refine h.takesBits ht hfit (fun q hq => ?_) (by simp only [List.length_singleton]; omega) fun more fuel => ?_
  · rw [List.mem_singleton.mp hq]
    omega
  · rw [List.length_singleton, Nat.add_comm 1 fuel, frameStarts_of_find fuel (hfind more), Nat.add_assoc]
    rfl

/-- The hit's response is that of the stream's frame (R134, R135). -/
theorem Swept.hit_response (h : Swept c stream s starts) (p : Nat) :
    frameResponse c stream (s.posHead + p) =
      (outcomeResponse (startWord s p) (frameOutcome s.cfg (rawFrame s p))).encode := by
  rw [frameResponse_eq, startWord, rawFrame, h.cfg_eq, h.buf_eq, List.drop_drop]

/-- Appended bits change none of the frames that have been reported (R142). -/
theorem Swept.appends (h : Swept c stream s starts) (d : List Byte) :
    Swept c (stream ++ bitsOf d) (afterAppend d s) starts where
  cfg_eq := h.cfg_eq
  isOpen := h.isOpen
  posHead_le := h.posHead_le.trans (by simp)
  buf_eq := by
    rw [afterAppend_buf, h.buf_eq, ← List.drop_append_of_le_length h.posHead_le]
    rfl
  starts_lt := fun q hq => (h.starts_lt q hq).trans_le (searchLimit_mono c (by simp))
  count_le := h.count_le
  frames := fun more fuel => by
    rw [List.append_assoc, h.frames]
    rfl

/-! ## Runs of commands -/

theorem appendedBits_append (log₁ log₂ : List (Instr × List Byte)) :
    appendedBits (log₁ ++ log₂) = appendedBits log₁ ++ appendedBits log₂ := by
  induction log₁ with
  | nil => rfl
  | cons entry log₁ ih =>
    obtain ⟨i, resp⟩ := entry
    cases i <;> simp [appendedBits, ih]

theorem runCommands_cons {i : Instr} {is : List Instr} {s t : State} {log : List (Instr × List Byte)}
    (h : runCommands (i :: is) s = some (log, t)) :
    ∃ resp u later, issue i s = .next (resp, u) ∧ runCommands is u = some (later, t) ∧ log = (i, resp) :: later := by
  simp only [runCommands] at h
  split at h
  · rename_i resp u hissue
    obtain ⟨⟨later, v⟩, hrest, heq⟩ := Option.map_eq_some_iff.mp h
    cases heq
    exact ⟨resp, u, later, hissue, hrest, rfl⟩
  · cases h

theorem runCommands_concat {cmds : List Instr} {i : Instr} {s t : State} {log : List (Instr × List Byte)}
    (h : runCommands (cmds ++ [i]) s = some (log, t)) :
    ∃ before u resp, runCommands cmds s = some (before, u) ∧ issue i u = .next (resp, t) ∧
      log = before ++ [(i, resp)] := by
  induction cmds generalizing s log with
  | nil =>
    obtain ⟨resp, u, later, hissue, hnil, rfl⟩ := runCommands_cons h
    cases hnil
    exact ⟨[], s, resp, rfl, hissue, rfl⟩
  | cons j cmds ih =>
    obtain ⟨resp, u, later, hissue, hrest, rfl⟩ := runCommands_cons h
    obtain ⟨before, v, last, hbefore, hlast, rfl⟩ := ih hrest
    exact ⟨(j, resp) :: before, v, last, by simp [runCommands, hissue, hbefore], hlast, rfl⟩

/-- One command of a run reports a frame, the next that the stream fixes, or none (R142). -/
theorem Swept.after_issue {i : Instr} {resp : List Byte} (hc : configWf c = true) (h : Swept c stream s starts)
    (hi : i ≠ .reset ∧ i ≠ .endStream) (hissue : issue i s = .next (resp, t)) :
    ∃ found, Swept c (stream ++ appendedBits [(i, resp)]) t (starts ++ found) ∧
      [resp].filter isHit = found.map (frameResponse c (stream ++ appendedBits [(i, resp)])) := by
  cases i with
  | reset => exact absurd rfl hi.1
  | endStream => exact absurd rfl hi.2
  | status =>
    obtain ⟨hmiss, htakes⟩ := issue_status_takesBits hissue
    exact ⟨[], by simpa [appendedBits] using h.stays htakes, by simp [hmiss]⟩
  | append d =>
    by_cases hok : resp = Response.ok.encode
    · subst hok
      obtain ⟨-, -, rfl⟩ := issue_append_ok hissue
      exact ⟨[], by simpa [appendedBits, payloadBits] using h.appends d, rfl⟩
    · obtain ⟨hmiss, htakes⟩ := issue_append_takesBits hissue hok
      exact ⟨[], by simpa [appendedBits, hok] using h.stays htakes, by simp [hmiss]⟩
  | attempt =>
    obtain rfl := h.cfg_eq
    rcases issue_attempt_misses_or_hits hc h.isOpen hissue with ⟨hmiss, rfl, htakes⟩ | ⟨p, hhit, rfl, htakes⟩
    · exact ⟨[], by simpa [appendedBits] using h.misses hc hmiss htakes, rfl⟩
    · refine ⟨[s.posHead + p], by simpa [appendedBits] using h.hits hc hhit htakes, ?_⟩
      simp [appendedBits, outcomeResponse_isHit, h.hit_response]

/-- The hits of a run are the responses to frames that the stream fixes, in order, by induction on the commands. -/
theorem Swept.after_run {cmds : List Instr} {log : List (Instr × List Byte)} (hc : configWf c = true)
    (h : Swept c stream s starts) (hcmds : ∀ i ∈ cmds, i ≠ .reset ∧ i ≠ .endStream)
    (hrun : runCommands cmds s = some (log, t)) :
    ∃ found, Swept c (stream ++ appendedBits log) t (starts ++ found) ∧
      (log.map Prod.snd).filter isHit = found.map (frameResponse c (stream ++ appendedBits log)) := by
  induction cmds generalizing stream s starts log with
  | nil =>
    cases hrun
    exact ⟨[], by simpa [appendedBits] using h, rfl⟩
  | cons i cmds ih =>
    obtain ⟨resp, u, later, hissue, hrest, rfl⟩ := runCommands_cons hrun
    obtain ⟨hi, hcmds⟩ := List.forall_mem_cons.mp hcmds
    obtain ⟨first, hfirst, hhit⟩ := h.after_issue hc hi hissue
    obtain ⟨found, hfound, hhits⟩ := ih hfirst hcmds hrest
    have hbits : stream ++ appendedBits ((i, resp) :: later) =
        stream ++ appendedBits [(i, resp)] ++ appendedBits later := by
      rw [List.append_assoc, ← appendedBits_append]
      rfl
    have hkept : first.map (frameResponse c (stream ++ appendedBits [(i, resp)] ++ appendedBits later)) =
        first.map (frameResponse c (stream ++ appendedBits [(i, resp)])) :=
      List.map_congr_left fun q hq =>
        frameResponse_append _ (hfirst.starts_lt q (List.mem_append_right _ hq))
    refine ⟨first ++ found, by rw [hbits, ← List.append_assoc]; exact hfound, ?_⟩
    calc (((i, resp) :: later).map Prod.snd).filter isHit
        = [resp].filter isHit ++ (later.map Prod.snd).filter isHit := List.filter_append (l₁ := [resp]) _
      _ = (first ++ found).map (frameResponse c (stream ++ appendedBits ((i, resp) :: later))) := by
        rw [hhit, hhits, hbits, List.map_append, hkept]

/-- With fuel for every bit of the stream, the frames reported are the first of all that it fixes. -/
theorem Swept.allFrames (h : Swept c stream s starts) :
    ∃ fuel, frameStarts c.syncWord c.frameBits stream (stream.length + 1) 0 =
      starts ++ frameStarts c.syncWord c.frameBits stream fuel s.posHead := by
  obtain ⟨fuel, hfuel⟩ : ∃ fuel, stream.length + 1 = starts.length + fuel :=
    Nat.exists_eq_add_of_le ((h.count_le.trans h.posHead_le).trans (Nat.le_succ _))
  exact ⟨fuel, by rw [hfuel]; simpa using h.frames [] fuel⟩

/-- A cursor that has passed the window leaves only frames that begin at its end or later (R139). -/
theorem Swept.frames_below (h : Swept c stream s starts) (hpassed : searchLimit c stream.length ≤ s.posHead) :
    (frameStarts c.syncWord c.frameBits stream (stream.length + 1) 0).filter
      (fun q => decide (q < searchLimit c stream.length)) = starts := by
  obtain ⟨fuel, hframes⟩ := h.allFrames
  have hreported : starts.filter (fun q => decide (q < searchLimit c stream.length)) = starts :=
    List.filter_eq_self.mpr fun q hq => decide_eq_true (h.starts_lt q hq)
  have hlater : (frameStarts c.syncWord c.frameBits stream fuel s.posHead).filter
      (fun q => decide (q < searchLimit c stream.length)) = [] :=
    List.filter_eq_nil_iff.mpr fun q hq => by
      have hge := le_of_mem_frameStarts hq
      simp only [decide_eq_true_eq]
      omega
  rw [hframes, List.filter_append, hreported, hlater, List.append_nil]

end

/-- Settles O57: what the block has reported is what its cursor has swept of the stream, at any moment of the run. -/
theorem framesDoNotDependOnTheSchedule : Obligations.FramesDoNotDependOnTheSchedule := by
  intro c cmds log t hc hcmds hrun
  obtain ⟨found, hswept, hhits⟩ := (swept_powerOn hc).after_run hc hcmds hrun
  rw [List.nil_append] at hswept hhits
  obtain ⟨fuel, hframes⟩ := hswept.allFrames
  rw [hhits, hframes, List.nil_append, List.map_append]
  exact ⟨_, rfl⟩

/-- Settles O58: the NO_FRAME says that the last ATTEMPT missed, and a miss moves the cursor to the window's end. -/
theorem drainedRunReportsEveryFrame : Obligations.DrainedRunReportsEveryFrame := by
  rintro c cmds log t hc hcmds hrun ⟨before, hlast⟩
  obtain ⟨earlier, s, resp, hbefore, hissue, rfl⟩ := runCommands_concat hrun
  obtain ⟨found, hswept, hhits⟩ := (swept_powerOn hc).after_run hc hcmds hbefore
  rw [List.nil_append] at hswept hhits
  obtain ⟨rfl, hresp⟩ := List.append_inj' hlast rfl
  have hbits : appendedBits (earlier ++ [(.attempt, resp)]) = appendedBits earlier := by
    rw [appendedBits_append]
    exact List.append_nil _
  have hmiss : isHit resp = false := by
    cases hresp
    rfl
  rcases issue_attempt_misses_or_hits (hswept.cfg_eq ▸ hc) hswept.isOpen hissue with
    ⟨hnone, -, htakes⟩ | ⟨p, -, rfl, -⟩
  · have hall := (hswept.misses hc hnone htakes).frames_below (hswept.window_passed htakes)
    rw [hbits, hall]
    simp [hmiss, hhits]
  · simp [outcomeResponse_isHit] at hmiss

end Sys2Proof.Machine

/-!
PROOFS, the dewhitener family: dewhitening is its own inverse (R163), and the cleartext sync word (R164).
-/

namespace Sys2Proof.Machine

/-! ## Dewhitening twice -/

/-- A mask that covers a frame cancels when it is applied twice. -/
theorem xorBits_xorBits_cancel {s mask : List Bit} (h : s.length ≤ mask.length) :
    xorBits (xorBits s mask) mask = s := by
  refine List.ext_getElem (by rw [xorBits_length, xorBits_length]; omega) fun k _ _ => ?_
  simp only [xorBits, List.getElem_zipWith, Bool.xor_assoc, Bool.xor_self, Bool.xor_false]

/-- Whitening and dewhitening are one operation (R163). -/
theorem cleartext_cleartext {c : Config} {raw : List Bit} (hmask : c.frameBits ≤ c.whitenMask.length)
    (hraw : raw.length = c.frameBits) : cleartext c (cleartext c raw) = raw :=
  xorBits_xorBits_cancel (by rw [List.length_take]; omega)

/-- The dewhitener's mask reads are in range under a well-formed configuration (R160, R231). -/
theorem dewhiten_eq_cleartext {c : Config} (hc : configWf c = true) (raw : List Bit) :
    dewhiten c raw = .ok (cleartext c raw) := by
  obtain ⟨-, -, -, hmask, -⟩ := configWf_iff.mp hc
  exact dewhiten_of_le raw hmask

/-- Settles O44: each bit is XORed with its own mask bit twice. -/
theorem dewhiteningIsAnInvolution : Obligations.DewhiteningIsAnInvolution := by
  intro c raw hc hraw
  obtain ⟨-, -, -, hmask, -⟩ := configWf_iff.mp hc
  refine ⟨cleartext c raw, dewhiten_eq_cleartext hc raw, cleartext_length hmask hraw, ?_⟩
  rw [dewhiten_eq_cleartext hc, cleartext_cleartext hmask hraw]

/-! ## The cleartext sync word -/

/-- The frame at a hit starts where the sync word matched (R132). -/
theorem HitsAt.rawFrame_take_syncW {s : State} {p : Nat} (hc : configWf s.cfg = true) (h : HitsAt s p) :
    (rawFrame s p).take s.cfg.syncW = s.cfg.syncWord := by
  obtain ⟨-, hsyncF, -⟩ := configWf_iff.mp hc
  obtain ⟨-, hsync, -⟩ := (hitsAt_iff hc).mp h
  rw [rawFrame, List.take_take, Nat.min_eq_left hsyncF, hsync]

/-- The mask is aligned to the frame: the first `n` cleartext bits are the first `n` raw bits under the first `n` mask
bits (R161). -/
theorem cleartext_take {c : Config} (raw : List Bit) {n : Nat} (hn : n ≤ c.frameBits) :
    (cleartext c raw).take n = xorBits (raw.take n) (c.whitenMask.take n) := by
  rw [cleartext, xorBits, List.take_zipWith, List.take_take, Nat.min_eq_left hn, xorBits]

/-- Settles O45: the frame's first bits are the sync word, and the mask starts with the frame. -/
theorem cleartextSyncWord : Obligations.CleartextSyncWord := by
  intro s p hc h
  obtain ⟨-, hsyncF, -⟩ := configWf_iff.mp hc
  refine ⟨cleartext s.cfg (rawFrame s p), dewhiten_eq_cleartext hc _, ?_⟩
  rw [cleartext_take _ hsyncF, h.rawFrame_take_syncW hc, xorBits]

end Sys2Proof.Machine

/-!
PROOFS, the CRC family: the CRC is affine (R184), masking the register late changes nothing (R184), and every single-bit
change is seen (R185). Each lifts a fact about one round of the register to a byte, and from a byte to the whole input.
-/

namespace Sys2Proof.Machine

/-! ## The register is linear (R184) -/

theorem crcRound_eq_xor (poly r : Half) :
    crcRound poly r = (r <<< 1) ^^^ (if r.getLsbD 15 then poly else 0#16) := by
  unfold crcRound
  split
  · rfl
  · rw [BitVec.xor_zero]

/-- A round is linear in the register: both the shift and the choice of the polynomial are. -/
theorem crcRound_xor (poly r s : Half) : crcRound poly (r ^^^ s) = crcRound poly r ^^^ crcRound poly s := by
  have hpoly : (if (r ^^^ s).getLsbD 15 then poly else 0#16) =
      (if r.getLsbD 15 then poly else 0#16) ^^^ (if s.getLsbD 15 then poly else 0#16) := by
    rw [BitVec.getLsbD_xor]
    cases r.getLsbD 15 <;> cases s.getLsbD 15 <;> simp
  rw [crcRound_eq_xor, crcRound_eq_xor, crcRound_eq_xor, hpoly, BitVec.shiftLeft_xor_distrib]
  ac_rfl

theorem crcRounds_xor (poly : Half) (n : Nat) (r s : Half) :
    crcRounds poly n (r ^^^ s) = crcRounds poly n r ^^^ crcRounds poly n s := by
  induction n generalizing r s with
  | zero => rfl
  | succ n ih => simp only [crcRounds, crcRound_xor, ih]

/-- One byte's step is linear in the register and the byte together. -/
theorem crcByte_xor (poly r s : Half) (x y : Byte) :
    crcByte poly (r ^^^ s) (x ^^^ y) = crcByte poly r x ^^^ crcByte poly s y := by
  have hinput : r ^^^ s ^^^ ((x ^^^ y).setWidth 16 <<< 8) =
      (r ^^^ (x.setWidth 16 <<< 8)) ^^^ (s ^^^ (y.setWidth 16 <<< 8)) := by
    rw [BitVec.setWidth_xor, BitVec.shiftLeft_xor_distrib]
    ac_rfl
  rw [crcByte, hinput, crcRounds_xor, crcByte, crcByte]

theorem foldl_crcByte_xor (poly : Half) {a b : List Byte} (h : a.length = b.length) (r s : Half) :
    (List.zipWith (· ^^^ ·) a b).foldl (crcByte poly) (r ^^^ s) =
      a.foldl (crcByte poly) r ^^^ b.foldl (crcByte poly) s := by
  induction a generalizing b r s with
  | nil =>
    obtain rfl := List.length_eq_zero_iff.mp h.symm
    rfl
  | cons x a ih =>
    obtain ⟨y, b, rfl⟩ := List.exists_cons_of_length_eq_add_one h.symm
    rw [List.zipWith_cons_cons, List.foldl_cons, crcByte_xor, ih (Nat.succ.inj h), List.foldl_cons, List.foldl_cons]

theorem zipWith_xor_self (m : List Byte) : List.zipWith (· ^^^ ·) m m = List.replicate m.length 0x00#8 := by
  rw [List.zipWith_self]
  simp only [BitVec.xor_self, List.map_const']

theorem xor_xor_xor_cancel (x y z k : Half) : (x ^^^ k) ^^^ (y ^^^ k) ^^^ (z ^^^ k) = x ^^^ y ^^^ z ^^^ k := by
  calc (x ^^^ k) ^^^ (y ^^^ k) ^^^ (z ^^^ k) = (x ^^^ y ^^^ z ^^^ k) ^^^ (k ^^^ k) := by ac_rfl
    _ = x ^^^ y ^^^ z ^^^ k := by rw [BitVec.xor_self, BitVec.xor_zero]

/-- Settles O46: by linearity the three registers XOR to the register of the three inputs' XOR, which is all zeros, from
the XOR of three initial values, which is one; and three output masks XOR to one. -/
theorem crcIsAffine : Obligations.CrcIsAffine := by
  intro c a b hab
  have hlen : (List.zipWith (· ^^^ ·) a b).length = a.length := by rw [List.length_zipWith, ← hab, Nat.min_self]
  have hreg := foldl_crcByte_xor c.crcPoly (rfl : (List.zipWith (· ^^^ ·) a b).length = _)
    (c.crcInit ^^^ c.crcInit) c.crcInit
  rw [zipWith_xor_self, hlen, foldl_crcByte_xor c.crcPoly hab, BitVec.xor_self, BitVec.zero_xor] at hreg
  simp only [crc16, hreg, xor_xor_xor_cancel]

/-! ## Late masking (R184) -/

theorem ofNat_shiftLeft (r k : Nat) : (BitVec.ofNat 16 (r <<< k) : Half) = BitVec.ofNat 16 r <<< k := by
  apply BitVec.eq_of_toNat_eq
  simp [Nat.shiftLeft_eq]

/-- The low 16 bits of an unmasked round are a round of the low 16 bits: the round tests bit 15, and no bit moves
down. -/
theorem ofNat_wideRound (poly : Half) (r : Nat) :
    BitVec.ofNat 16 (wideRound poly.toNat r) = crcRound poly (BitVec.ofNat 16 r) := by
  have htop : (BitVec.ofNat 16 r).getLsbD 15 = r.testBit 15 := by
    rw [BitVec.getLsbD_ofNat, decide_eq_true (by omega), Bool.true_and]
  rw [wideRound, crcRound, htop]
  split
  · rw [BitVec.ofNat_xor, ofNat_shiftLeft, BitVec.ofNat_toNat, BitVec.setWidth_eq]
  · exact ofNat_shiftLeft r 1

theorem ofNat_wideRounds (poly : Half) (n r : Nat) :
    BitVec.ofNat 16 (wideRounds poly.toNat n r) = crcRounds poly n (BitVec.ofNat 16 r) := by
  induction n generalizing r with
  | zero => rfl
  | succ n ih => rw [wideRounds, ih, ofNat_wideRound, crcRounds]

/-- Masked once after a byte's rounds, the unmasked register holds what the machine's register holds. -/
theorem lateMaskByte_toNat (poly r : Half) (x : Byte) :
    lateMaskByte poly.toNat r.toNat x = (crcByte poly r x).toNat := by
  have hinput : BitVec.ofNat 16 (r.toNat ^^^ (x.toNat <<< 8)) = r ^^^ (x.setWidth 16 <<< 8) := by
    rw [BitVec.ofNat_xor, ofNat_shiftLeft, BitVec.ofNat_toNat, BitVec.ofNat_toNat, BitVec.setWidth_eq]
  rw [lateMaskByte, ← BitVec.toNat_ofNat, ofNat_wideRounds, hinput, crcByte]

theorem foldl_lateMaskByte (poly r : Half) (m : List Byte) :
    m.foldl (lateMaskByte poly.toNat) r.toNat = (m.foldl (crcByte poly) r).toNat := by
  induction m generalizing r with
  | nil => rfl
  | cons x m ih => rw [List.foldl_cons, lateMaskByte_toNat, ih, List.foldl_cons]

/-- Settles O47: after each byte the two registers hold the same value. -/
theorem lateMaskingGivesTheSameCrc : Obligations.LateMaskingGivesTheSameCrc := by
  intro c m
  rw [lateMaskCrc, foldl_lateMaskByte, crc16, BitVec.toNat_xor]

/-! ## Single-bit changes (R185)

The step of the register is one-to-one when the polynomial has a constant term, so registers that differ once differ to
the end. -/

/-- A polynomial with a constant term puts the bit shifted out at the bottom of the register. -/
theorem crcRound_getLsbD_zero {poly : Half} (hpoly : poly.getLsbD 0 = true) (r : Half) :
    (crcRound poly r).getLsbD 0 = r.getLsbD 15 := by
  rw [crcRound_eq_xor, BitVec.getLsbD_xor, BitVec.getLsbD_shiftLeft]
  cases r.getLsbD 15 <;> simp [hpoly]

/-- A left shift by one loses only the top bit. -/
theorem eq_of_shiftLeft_one_eq {r s : Half} (htop : r.getLsbD 15 = s.getLsbD 15) (hshift : r <<< 1 = s <<< 1) :
    r = s := by
  apply BitVec.eq_of_getElem_eq
  intro i hi
  by_cases h15 : i = 15
  · subst h15
    exact htop
  · have hbit := congrArg (BitVec.getLsbD · (i + 1)) hshift
    simpa [BitVec.getLsbD_shiftLeft, show i + 1 < 16 by omega] using hbit

theorem crcRound_injective {poly : Half} (hpoly : poly.getLsbD 0 = true) : Function.Injective (crcRound poly) := by
  intro r s h
  have htop : r.getLsbD 15 = s.getLsbD 15 := by
    rw [← crcRound_getLsbD_zero hpoly, h, crcRound_getLsbD_zero hpoly]
  rw [crcRound_eq_xor, crcRound_eq_xor, htop] at h
  exact eq_of_shiftLeft_one_eq htop ((BitVec.xor_left_inj _).mp h)

theorem crcRounds_injective {poly : Half} (hpoly : poly.getLsbD 0 = true) (n : Nat) :
    Function.Injective (crcRounds poly n) := by
  induction n with
  | zero => exact Function.injective_id
  | succ n ih => exact ih.comp (crcRound_injective hpoly)

/-- Different registers stay different under the same bytes. -/
theorem foldl_crcByte_injective {poly : Half} (hpoly : poly.getLsbD 0 = true) (m : List Byte) :
    Function.Injective (m.foldl (crcByte poly)) := by
  induction m with
  | nil => exact Function.injective_id
  | cons x m ih => exact ih.comp fun r s h => (BitVec.xor_left_inj _).mp (crcRounds_injective hpoly 8 h)

/-- Different bytes make one register different: a byte lands whole in the register's high byte. -/
theorem crcByte_injective {poly : Half} (hpoly : poly.getLsbD 0 = true) (r : Half) :
    Function.Injective (crcByte poly r) := by
  intro x y h
  have hhigh : x.setWidth 16 <<< 8 = y.setWidth 16 <<< 8 :=
    (BitVec.xor_right_inj _).mp (crcRounds_injective hpoly 8 h)
  bv_omega

/-- Under a polynomial with a constant term, a change of any one byte of the input changes the CRC. -/
theorem crc16_modify_ne {c : Config} (hpoly : c.crcPoly.getLsbD 0 = true) {f : Byte → Byte} (hf : ∀ x, f x ≠ x)
    {m : List Byte} {k : Nat} (hk : k < m.length) : crc16 c (m.modify k f) ≠ crc16 c m := by
  intro h
  obtain ⟨before, x, after, rfl, -, hmodify⟩ := List.exists_of_modify f hk
  simp only [hmodify, crc16, List.foldl_append, List.foldl_cons, BitVec.xor_left_inj] at h
  exact hf x (crcByte_injective hpoly _ (foldl_crcByte_injective hpoly after h))

/-- Flipping a bit changes its byte. -/
theorem xor_twoPow_ne (x : Byte) {j : Nat} (hj : j < 8) : x ^^^ BitVec.twoPow 8 j ≠ x := by
  intro h
  have hbit := congrArg (BitVec.getLsbD · j) h
  simp [hj] at hbit

/-- Settles O48: the flip changes one byte, and the default polynomial has a constant term. -/
theorem singleBitChangesTheCrc : Obligations.SingleBitChangesTheCrc := by
  intro c m i _ hpoly _ hlen hi
  have hconst : c.crcPoly.getLsbD 0 = true := by
    rw [hpoly]
    rfl
  exact crc16_modify_ne hconst (fun x => xor_twoPow_ne x (by omega)) (by omega)

end Sys2Proof.Machine

/-!
PROOFS, the field decoder family: the values that the decoder gives (R200, R202 to R204). A field has at most 32 bits, so
its value fits the 32-bit word that reports it.
-/

namespace Sys2Proof.Machine

theorem fieldValue_lt (order : BitOrder) (bits : List Bit) : fieldValue order bits < 2 ^ bits.length := by
  cases order with
  | msbFirst => exact be_lt bits
  | lsbFirst => exact le_lt bits

/-- The value of a table entry's bits in a frame is below two to the entry's width (R202, R203). -/
theorem fieldValue_entry_lt (e : FieldEntry) (clr : List Bit) :
    fieldValue e.order ((clr.drop e.off).take e.width) < 2 ^ e.width :=
  (fieldValue_lt _ _).trans_le (Nat.pow_le_pow_right Nat.two_pos (List.length_take_le _ _))

/-- The fault of R204: no value comes of a frame that is not `F` bits long. -/
theorem decodeFields_of_length_ne {c : Config} {clr : List Bit} (h : clr.length ≠ c.frameBits) :
    decodeFields c clr = .error .frameLength := if_pos h

/-- Under a well-formed configuration every entry of the table lies in a frame of `F` bits (R200, R231). -/
theorem decodeFields_wf {c : Config} {clr : List Bit} (hc : configWf c = true) (hlen : clr.length = c.frameBits) :
    decodeFields c clr = .ok (fieldWords c clr) := by
  obtain ⟨-, -, -, -, -, -, -, htab, -⟩ := configWf_iff.mp hc
  rw [decodeFields, if_neg (not_not_intro hlen)]
  exact readFields_of_le fun e he => hlen ▸ (fieldTableWf_entry htab e he).2.2

/-- The 32-bit report cuts no bit of a field's value (R205). -/
theorem fieldWords_map_toNat {c : Config} (hc : configWf c = true) (clr : List Bit) :
    (fieldWords c clr).map BitVec.toNat =
      c.fieldTable.map fun e => fieldValue e.order ((clr.drop e.off).take e.width) := by
  obtain ⟨-, -, -, -, -, -, -, htab, -⟩ := configWf_iff.mp hc
  rw [fieldWords, List.map_map]
  refine List.map_congr_left fun e he => ?_
  obtain ⟨-, hwidth, -⟩ := fieldTableWf_entry htab e he
  have hfits : fieldValue e.order ((clr.drop e.off).take e.width) < 2 ^ 32 :=
    (fieldValue_entry_lt e clr).trans_le (Nat.pow_le_pow_right Nat.two_pos hwidth)
  exact (BitVec.toNat_ofNat _ _).trans (Nat.mod_eq_of_lt hfits)

theorem fieldWords_getElem_lt (c : Config) (clr : List Bit) {k : Nat} (h : k < (fieldWords c clr).length)
    (h' : k < c.fieldTable.length) : (fieldWords c clr)[k].toNat < 2 ^ c.fieldTable[k].width := by
  simp only [fieldWords, List.getElem_map, BitVec.toNat_ofNat]
  exact (Nat.mod_le _ _).trans_lt (fieldValue_entry_lt _ clr)

/-- Settles O49: on a frame of `F` bits the decoder's words are `fieldWords`, and none of them cuts its field's value. -/
theorem fieldValues : Obligations.FieldValues := fun c clr hc =>
  ⟨fun hlen => ⟨fieldWords c clr, decodeFields_wf hc hlen, fieldWords_map_toNat hc clr,
    fun _ h h' => fieldWords_getElem_lt c clr h h'⟩, decodeFields_of_length_ne⟩

end Sys2Proof.Machine

/-!
PROOFS, the control family: the configuration check and its conditions (R231), and what RESET, STATUS and END do in
every state (R230, R232, R233).
-/

namespace Sys2Proof.Machine

/-! ## The configuration check -/

theorem entryWf_iff {F : Nat} {e : FieldEntry} :
    entryWf F e = true ↔ 1 ≤ e.width ∧ e.width ≤ 32 ∧ e.off + e.width ≤ F := by
  simp [entryWf, and_assoc]

/-- The pairwise check on the entries' names is the library's absence of duplicates (R231, condition 6). -/
theorem namesDistinct_iff_nodup {t : List FieldEntry} :
    namesDistinct t = true ↔ (t.map FieldEntry.name).Nodup := by
  induction t with
  | nil => simp [namesDistinct]
  | cons e es ih =>
    have hhead : es.all (fun f => decide (e.name ≠ f.name)) = true ↔ e.name ∉ es.map FieldEntry.name := by
      simp [eq_comm (a := e.name)]
    rw [namesDistinct, Bool.and_eq_true, hhead, ih, List.map_cons, List.nodup_cons]

/-- What the check of the field table says (R231, condition 6). -/
theorem fieldTableWf_iff {F : Nat} {t : List FieldEntry} : fieldTableWf F t = true ↔
    1 ≤ t.length ∧ t.length ≤ 16 ∧ (∀ e ∈ t, 1 ≤ e.width ∧ e.width ≤ 32 ∧ e.off + e.width ≤ F) ∧
      (t.map FieldEntry.name).Nodup := by
  simp only [fieldTableWf, Bool.and_eq_true, decide_eq_true_eq, List.all_eq_true, entryWf_iff,
    namesDistinct_iff_nodup, and_assoc]

/-- The field table of R201 lies in the default frame. -/
theorem fieldTableWf_default : fieldTableWf 216 defaultFieldTable = true := by decide

/-- The defaults of R4 to R13 need of the four open parameters only what R6, R7, R11 and R12 ask of them (R231). -/
theorem configWf_defaultConfig {sync mask : List Bit} {chunkMax cap : Nat} (hsync : sync.length = 40)
    (hmask : 216 ≤ mask.length) (hmin : 1 ≤ chunkMax) (hmax : chunkMax ≤ 65535) (hroom : 216 + 8 * chunkMax ≤ cap)
    (hcap : cap < 2 ^ 32) : configWf (defaultConfig sync mask chunkMax cap) = true :=
  configWf_iff.mpr ⟨(by decide : 1 ≤ 40), (by decide : 40 ≤ 216), hsync, hmask, (by decide : 1 ≤ 24),
    (by decide : 8 * 24 ≤ 216), (by decide : 192 + 16 ≤ 216), fieldTableWf_default, hmin, hmax, hroom, hcap⟩

/-- Settles O21: the check asks the conditions one by one, and the defaults meet each of them. -/
theorem configurationCheck : Obligations.ConfigurationCheck := by
  refine ⟨fun c => ?_, fun _ _ _ _ hsync hmask hmin hmax hroom hcap =>
    configWf_defaultConfig hsync hmask hmin hmax hroom hcap⟩
  rw [configWf_iff, fieldTableWf_iff]
  simp only [and_assoc]

/-! ## END -/

/-- Settles O31, outcome by outcome of END, in the order of its checks. -/
theorem endResult : Obligations.EndResult := by
  intro s
  obtain ⟨t, ht⟩ := execEndStream_next s
  have hexec : exec .endStream s = .next t := ht
  rcases execEndStream_cases ht with ⟨hok, rfl⟩ | ⟨hok, hended, rfl⟩ | ⟨hok, hended, rfl⟩
  · rw [hexec, if_pos hok]
    rfl
  · rw [hexec, if_neg (by simp [hok]), if_pos hended]
    rfl
  · rw [hexec, if_neg (by simp [hok]), if_neg (by simp [hended])]
    rfl

/-! ## RESET and STATUS -/

/-- Settles O27: RESET has no check, and the record it leaves is `resetRecord`, field by field. -/
theorem resetResult : Obligations.ResetResult := fun _ => rfl

/-- The six status words as R232 writes them: FLAGS as a sum, and the position modulo 2^32. -/
theorem statusWords_eq (s : State) : statusWords s =
    [BitVec.ofNat 32 (s.cfgOk.toNat + 2 * s.ended.toNat), BitVec.ofNat 32 s.buf.length,
      BitVec.ofNat 32 (s.posHead % 2 ^ 32), s.cntNoSync, s.cntCrcErr, s.cntPkt] := by
  have hpos : BitVec.ofNat 32 s.posHead = BitVec.ofNat 32 (s.posHead % 2 ^ 32) := startWord_eq_mod s 0
  rw [statusWords, flagsWord_eq_ofNat, hpos]

/-- The bytes of the status report (R34, R78, R232). -/
theorem statusReport_statusWords_encode (s : State) : (Response.statusReport (statusWords s)).encode =
    [0x13#8, 0x00#8, 0x00#8, 0x18#8] ++
      be32 (BitVec.ofNat 32 (s.cfgOk.toNat + 2 * s.ended.toNat)) ++ be32 (BitVec.ofNat 32 s.buf.length) ++
      be32 (BitVec.ofNat 32 (s.posHead % 2 ^ 32)) ++ be32 s.cntNoSync ++ be32 s.cntCrcErr ++ be32 s.cntPkt := by
  rw [statusReport_encode rfl, statusWords_eq]
  simp only [List.flatMap_cons, List.flatMap_nil, List.append_nil, List.append_assoc]

/-- Settles O28: STATUS has no check, and it sends its report from the state it found. -/
theorem statusResult : Obligations.StatusResult := by
  intro s
  rw [← statusReport_statusWords_encode s]
  rfl

end Sys2Proof.Machine

/-!
PROOFS, the exceptions family: the checks that refuse APPEND, ATTEMPT and END (R253, R258), which error a command
reports (R259), and why a host that drains after every chunk is never refused (R257, R285).
-/

namespace Sys2Proof.Machine

/-! ## The checks that refuse -/

/-- APPEND, ATTEMPT and END go through the same checks first (R259). -/
theorem exec_eq_whenOpen {i : Instr} (s : State) (hreset : i ≠ .reset) (hstatus : i ≠ .status) :
    ∃ k, exec i s = whenOpen s k := by
  cases i with
  | reset => exact absurd rfl hreset
  | status => exact absurd rfl hstatus
  | append d => exact ⟨_, rfl⟩
  | attempt => exact ⟨_, rfl⟩
  | endStream => exact ⟨_, rfl⟩

theorem whenOpen_malformed {s : State} (k : Result) (hok : s.cfgOk = false) :
    whenOpen s k = .next (raiseError .formatError s) := if_pos hok

theorem whenOpen_ended {s : State} (k : Result) (hok : s.cfgOk = true) (hended : s.ended = true) :
    whenOpen s k = .next (raiseError .streamEnded s) := by
  rw [whenOpen, if_neg (by simp [hok]), if_pos hended]

/-- Settles O33. -/
theorem malformedConfigurationRefuses : Obligations.MalformedConfigurationRefuses := by
  intro s i hok hreset hstatus
  obtain ⟨k, hk⟩ := exec_eq_whenOpen s hreset hstatus
  rw [hk, whenOpen_malformed k hok]
  rfl

/-- Settles O34. -/
theorem endedStreamRefuses : Obligations.EndedStreamRefuses := by
  intro s i hok hended hreset hstatus
  obtain ⟨k, hk⟩ := exec_eq_whenOpen s hreset hstatus
  rw [hk, whenOpen_ended k hok hended]
  rfl

/-! ## The order of the errors -/

/-- Settles O25: the outcomes of each command, in the order of its checks; RESET and STATUS have none. -/
theorem errorPriority : Obligations.ErrorPriority := by
  intro d s t h
  cases d with
  | illegal why hd =>
    obtain rfl := Host.Outcome.next.inj h
    exact ⟨0x20#8, _, rfl, rfl⟩
  | command i =>
    cases i with
    | reset =>
      obtain rfl := Host.Outcome.next.inj h
      exact ⟨0x00#8, _, rfl, rfl⟩
    | status =>
      obtain rfl := Host.Outcome.next.inj h
      exact ⟨0x13#8, _, rfl, rfl⟩
    | endStream =>
      rcases execEndStream_cases h with ⟨hok, rfl⟩ | ⟨hok, hended, rfl⟩ | ⟨hok, hended, rfl⟩
      · exact ⟨0x23#8, _, rfl, by simp [hok]⟩
      · exact ⟨0x22#8, _, rfl, by simp [hok, hended]⟩
      · exact ⟨0x00#8, _, rfl, by simp [hok, hended]⟩
    | append p =>
      rcases execAppend_cases h with
        ⟨hok, rfl⟩ | ⟨hok, hended, rfl⟩ | ⟨hok, hended, hover, rfl⟩ | ⟨hok, hended, hfit, rfl⟩
      · exact ⟨0x23#8, _, rfl, by simp [hok]⟩
      · exact ⟨0x22#8, _, rfl, by simp [hok, hended]⟩
      · exact ⟨0x21#8, _, rfl, by simp [hok, hended, hover]⟩
      · exact ⟨0x00#8, _, rfl, by simp [hok, hended, hfit]⟩
    | attempt =>
      rcases execAttempt_cases h with
        ⟨hok, rfl⟩ | ⟨hok, hended, rfl⟩ | ⟨hok, hended, -, -, rfl⟩ | ⟨hok, hended, p, o, -, -, -, rfl⟩
      · exact ⟨0x23#8, _, rfl, by simp [hok]⟩
      · exact ⟨0x22#8, _, rfl, by simp [hok, hended]⟩
      · exact ⟨0x10#8, _, rfl, by simp [hok, hended]⟩
      · cases o with
        | mismatch computed rx => exact ⟨0x11#8, _, rfl, by simp [hok, hended]⟩
        | packet values => exact ⟨0x12#8, _, rfl, by simp [hok, hended]⟩

/-! ## A stream that is being received -/

/-- `Receiving c sent s`: a legal open block with the configuration `c` has been sent `sent` bits since its reset. -/
structure Receiving (c : Config) (sent : Nat) (s : State) : Prop where
  cfg_eq : s.cfg = c
  inv : s.Inv
  isOpen : s.Open
  posTail_eq : posTail s = sent

/-- `Drained c sent s`: a stream that is being received, with no more in the buffer than a miss keeps (R137). -/
structure Drained (c : Config) (sent : Nat) (s : State) : Prop extends Receiving c sent s where
  buf_le : s.buf.length ≤ retained c

/-- `BUF_CAP` has room for what a miss keeps and for one whole chunk (R12, R231 condition 7). -/
theorem retained_add_chunk_le {c : Config} (hc : configWf c = true) :
    retained c + 8 * c.chunkMaxBytes ≤ c.bufCapBits := by
  obtain ⟨-, -, -, -, -, -, -, -, -, -, hroom, -⟩ := configWf_iff.mp hc
  have hframe : retained c ≤ c.frameBits := by
    unfold retained
    cases c.trimPolicy <;> simp only <;> omega
  omega

theorem drained_powerOn {c : Config} (hc : configWf c = true) : Drained c 0 (State.powerOn c) where
  cfg_eq := rfl
  inv := inv_powerOn c
  isOpen := ⟨hc, rfl⟩
  posTail_eq := rfl
  buf_le := Nat.zero_le _

section

variable {c : Config} {sent : Nat} {s t : State}

theorem Receiving.config_wf (h : Receiving c sent s) : configWf c = true :=
  h.cfg_eq ▸ configWf_of_inv h.inv h.isOpen.1

/-- What the cursor passes is no longer in the buffer, but has still been sent (R23). -/
theorem Receiving.takesBits {n : Nat} (h : Receiving c sent s) (ht : TakesBits n s t) (hn : n ≤ s.buf.length) :
    Receiving c sent t where
  cfg_eq := ht.cfg_eq.trans h.cfg_eq
  inv := by
    have hwf : Memory.wf t.cfg.bufCapBits t.buf = true := by
      rw [ht.cfg_eq, ht.buf_eq]
      exact memory_wf_drop n h.inv.buf_wf
    exact inv_of_cfgOk h.inv h.isOpen.1 ht.cfg_eq ht.cfgOk_eq hwf (by simp [(ht.open_after h.isOpen).2])
  isOpen := ht.open_after h.isOpen
  posTail_eq := by
    rw [← h.posTail_eq, posTail, posTail, ht.buf_eq, ht.posHead_eq, List.length_drop]
    omega

/-- A hit leaves the stream to be received further; anything else has drained it (R83, R137). -/
theorem Receiving.after_attempt {resp : List Byte} (h : Receiving c sent s)
    (hissue : issue .attempt s = .next (resp, t)) :
    (isHit resp = true ∧ Receiving c sent t) ∨ (isHit resp = false ∧ Drained c sent t) := by
  obtain rfl := h.cfg_eq
  rcases issue_attempt_misses_or_hits h.config_wf h.isOpen hissue with ⟨-, rfl, htakes⟩ | ⟨p, hhit, rfl, htakes⟩
  · refine .inr ⟨rfl, h.takesBits htakes (searchLimit_le_of_wf h.config_wf), ?_⟩
    rw [htakes.buf_eq, List.length_drop]
    exact sub_searchLimit_le_retained s.cfg s.buf.length
  · exact .inl ⟨outcomeResponse_isHit _ _, h.takesBits htakes hhit.frame_fits⟩

/-- A DRAIN that has ended has drained the stream and lost none of its bits, by induction on the ATTEMPTs (R83). -/
theorem Receiving.of_drain {fuel : Nat} (h : Receiving c sent s) (hdrain : drain fuel s = some (.next t)) :
    Drained c sent t := by
  induction fuel generalizing s with
  | zero => cases hdrain
  | succ fuel ih =>
    obtain ⟨resp, u, hissue, -⟩ := issue_attempt h.inv
    simp only [drain, hissue] at hdrain
    rcases h.after_attempt hissue with ⟨hhit, hu⟩ | ⟨hmiss, hu⟩
    · rw [if_pos hhit] at hdrain
      exact ih hu hdrain
    · rw [if_neg (by simp [hmiss])] at hdrain
      cases hdrain
      exact hu

theorem Receiving.drains (h : Receiving c sent s) :
    ∃ t, drain (drainFuel s) s = some (.next t) ∧ Drained c sent t := by
  obtain ⟨t, hdrain, -⟩ := drain_ends h.inv (Nat.lt_succ_self _)
  exact ⟨t, hdrain, h.of_drain hdrain⟩

/-- After a DRAIN every legal chunk fits (R257). -/
theorem Drained.exec_append (h : Drained c sent s) {d : List Byte} (hd : d.length ≤ c.chunkMaxBytes) :
    exec (.append d) s = .next (respond .ok (appendBits (bitsOf d) s)) := by
  have hroom := retained_add_chunk_le h.config_wf
  have hbuf := h.buf_le
  exact exec_append_of_fits h.isOpen (by rw [h.cfg_eq]; omega)

/-- The channels are no part of what has been received. -/
theorem Drained.after_take (h : Drained c sent s) : Drained c sent (takeResponse s) :=
  ⟨⟨h.cfg_eq, inv_takeResponse h.inv, h.isOpen, h.posTail_eq⟩, h.buf_le⟩

/-- A legal chunk that is sent after a DRAIN is answered OK and received (R100, R257). -/
theorem Drained.issue_append (h : Drained c sent s) {d : List Byte} (hd : d.length ≤ c.chunkMaxBytes) :
    issue (.append d) s = .next (Response.ok.encode, afterAppend d s) ∧
      Receiving c (sent + 8 * d.length) (afterAppend d s) := by
  have hexec := h.after_take.exec_append hd
  obtain ⟨-, -, -, -, -, -, -, -, -, hmax, -⟩ := configWf_iff.mp h.config_wf
  have hsend : sendCommand (.append d) (takeResponse s) =
      .next (respond .ok (appendBits (bitsOf d) (takeResponse s))) := by
    rw [sendCommand_append, if_neg (by omega), if_pos (by simpa [h.cfg_eq] using hd), hexec]
  refine ⟨issue_of_next hsend, h.cfg_eq, ?_, h.isOpen, ?_⟩
  · exact inv_takeResponse (effect_keeps_inv (exec_effect hexec) h.after_take.inv)
  · rw [← h.posTail_eq, posTail, afterAppend_buf, List.length_append, bitsOf_length, ← Nat.add_assoc]
    rfl

/-- FEED of a legal chunk to a drained block ends, with the chunk received and the block drained again (R83, R285). -/
theorem Drained.after_feed (h : Drained c sent s) {d : List Byte} (hd : d.length ≤ c.chunkMaxBytes) :
    ∃ t, feed d s = some (.next t) ∧ Drained c (sent + 8 * d.length) t := by
  obtain ⟨hissue, hreceived⟩ := h.issue_append hd
  obtain ⟨t, hdrain, ht⟩ := hreceived.drains
  exact ⟨t, by simp only [feed, hissue, hdrain], ht⟩

/-- So does FEED of every chunk of a list, by induction on the chunks. -/
theorem Drained.after_feedAll {chunks : List (List Byte)} (h : Drained c sent s)
    (hchunks : ∀ d ∈ chunks, d.length ≤ c.chunkMaxBytes) :
    ∃ t, feedAll chunks s = some (.next t) ∧ Drained c (sent + 8 * chunks.flatten.length) t := by
  induction chunks generalizing sent s with
  | nil => exact ⟨s, rfl, h⟩
  | cons d ds ih =>
    obtain ⟨hd, hds⟩ := List.forall_mem_cons.mp hchunks
    obtain ⟨u, hfeed, hu⟩ := h.after_feed hd
    obtain ⟨t, hrest, ht⟩ := ih hu hds
    refine ⟨t, by simp only [feedAll, hfeed, hrest], ?_⟩
    rwa [List.flatten_cons, List.length_append, Nat.mul_add, ← Nat.add_assoc]

/-- END passes its checks on an open stream (R233). -/
theorem exec_endStream_of_open (ho : s.Open) : exec .endStream s = .next (respond .ok (afterEnd s)) := by
  obtain ⟨hok, hended⟩ := ho
  rw [endResult s, if_neg (by simp [hok]), if_neg (by simp [hended])]
  rfl

/-- An END sent by the host leaves the cursor at the number of bits received (R23, R233). -/
theorem Receiving.issue_endStream (h : Receiving c sent s) :
    ∃ resp t, issue .endStream s = .next (resp, t) ∧ t.ended = true ∧ t.buf = [] ∧ t.posHead = sent := by
  have hexec := exec_endStream_of_open (s := takeResponse s) h.isOpen
  exact ⟨_, _, issue_of_next ((sendCommand_endStream _).trans hexec), rfl, rfl, h.posTail_eq⟩

end

/-- Settles O54: a DRAIN leaves an open stream drained, whatever its length. -/
theorem appendFitsAfterDrain : Obligations.AppendFitsAfterDrain := by
  intro s t fuel d hs hok hended hdrain hd
  have hstart : Receiving s.cfg (posTail s) s := ⟨rfl, hs, ⟨hok, hended⟩, rfl⟩
  exact ⟨_, (hstart.of_drain hdrain).exec_append hd, rfl, rfl⟩

/-- Settles O55: the block is drained at power-on and after every FEED, so each chunk finds room. -/
theorem referenceLoopAcceptsEverything : Obligations.ReferenceLoopAcceptsEverything := by
  intro c chunks hc hchunks
  obtain ⟨s, hfeed, hs⟩ := (drained_powerOn hc).after_feedAll hchunks
  obtain ⟨u, hdrain, hu⟩ := hs.drains
  obtain ⟨resp, t, hissue, hended, hbuf, hpos⟩ := hu.issue_endStream
  exact ⟨t, by simp only [referenceLoop, hfeed, hdrain, hissue], hended, hbuf, by rw [hpos, Nat.zero_add]⟩

end Sys2Proof.Machine

/-!
PROOFS, the reset and hazards family: a host that sends one ATTEMPT per chunk, in place of a DRAIN, keeps the buffer
bounded (R285).
-/

namespace Sys2Proof.Machine

theorem retained_le_frameBits (c : Config) : retained c ≤ c.frameBits := by
  unfold retained
  cases c.trimPolicy <;> simp only <;> omega

/-- What one ATTEMPT on an open stream leaves: at most a frame after a miss, which trims the buffer, and at least a frame
less than before after a hit, which extracts one (R132, R133). -/
theorem attempt_buf_length_le {s t : State} (hc : configWf s.cfg = true) (ho : s.Open)
    (h : exec .attempt s = .next t) : t.buf.length ≤ max s.cfg.frameBits (s.buf.length - s.cfg.frameBits) := by
  rcases attempt_misses_or_hits hc ho h with ⟨-, rfl⟩ | ⟨p, -, rfl⟩
  · refine le_max_of_le_left ?_
    calc (s.buf.drop (searchLimit s.cfg s.buf.length)).length
      _ = s.buf.length - searchLimit s.cfg s.buf.length := List.length_drop
      _ ≤ retained s.cfg := sub_searchLimit_le_retained s.cfg s.buf.length
      _ ≤ s.cfg.frameBits := retained_le_frameBits s.cfg
  · refine le_max_of_le_right ?_
    rw [finishFrame_buf, afterHit_buf, List.length_drop]
    omega

/-- Settles O56: `BUF_CAP` has room for a frame and a chunk (R231, condition 7), and the APPEND leaves at most `2F` bits,
of which the ATTEMPT leaves at most `F` whether it misses or hits. -/
theorem oneAttemptPerChunkIsEnough : Obligations.OneAttemptPerChunkIsEnough := by
  intro s d hs hok hended hbuf hchunk hd
  have hc := configWf_of_inv hs hok
  have ho : s.Open := ⟨hok, hended⟩
  obtain ⟨-, -, -, -, -, -, -, -, -, -, hroom, -⟩ := configWf_iff.mp hc
  have happend : exec (.append d) s = .next (respond .ok (appendBits (bitsOf d) s)) :=
    exec_append_of_fits ho (by omega)
  obtain ⟨u, hattempt⟩ := exec_next .attempt (s := respond .ok (appendBits (bitsOf d) s)) hs.cfgOk_eq
  have hleft : u.buf.length ≤ max s.cfg.frameBits ((s.buf ++ bitsOf d).length - s.cfg.frameBits) :=
    attempt_buf_length_le (s := respond .ok (appendBits (bitsOf d) s)) hc ho hattempt
  refine ⟨_, u, happend, rfl, hattempt, hleft.trans (max_le (Nat.le_refl _) ?_)⟩
  rw [List.length_append, bitsOf_length]
  omega

end Sys2Proof.Machine
